-- ==== Sys2Proof/Word.lean ====
section
/-! DEFINITION. The words on the ports of the unit (10_state.md R17) and the request word (30_encoding.md R41). -/

namespace Sys2Proof

/-- A pattern on an operand or result port (R14, R17): 16 bits, bit 0 the least significant (R10). -/
abbrev Word := BitVec 16

/-- The operation select port `op` (R17, R42). -/
abbrev OpSel := BitVec 3

/-- A request written as one number, `op` in bits 34:32, `a` in 31:16, `b` in 15:0 (R41). -/
abbrev RequestWord := BitVec 35

end Sys2Proof
end

