-- ==== Sys2Proof/Syntax.lean ====
section
/-! DEFINITION. Requests, one constructor per row of spec/opcode_table.json (30_encoding.md R42), and the spec's
assembler notation with its pseudo-operations (R50, R51). -/

namespace Sys2Proof

/-- A request `(op, a, b)` (R41), one constructor per value of `op` (R42). Every pattern is a legal operand (R21).
The unary operations keep the don't-care field `b` (R46; DESIGN CHOICE, log entry 9), so that a request and its
word carry the same bits. -/
inductive Instr where
  /-- op 000, `ADD a, b` (R81) -/
  | add (a b : Word)
  /-- op 001, `SUB a, b` (R82) -/
  | sub (a b : Word)
  /-- op 010, `MUL a, b` (R92) -/
  | mul (a b : Word)
  /-- op 011, `DIV a, b` (R103) -/
  | div (a b : Word)
  /-- op 100, `ISZERO a` (R57) -/
  | iszero (a b : Word)
  /-- op 101, `ISNAN a` (R58) -/
  | isnan (a b : Word)
  /-- op 110, `ISINF a` (R59) -/
  | isinf (a b : Word)
  /-- op 111, `CLASS a` (R60) -/
  | classify (a b : Word)
  deriving DecidableEq, Repr

/-- The upper-case names of R42. -/
def Instr.mnemonic : Instr → String
  | .add _ _ => "ADD"
  | .sub _ _ => "SUB"
  | .mul _ _ => "MUL"
  | .div _ _ => "DIV"
  | .iszero _ _ => "ISZERO"
  | .isnan _ _ => "ISNAN"
  | .isinf _ _ => "ISINF"
  | .classify _ _ => "CLASS"

/-- A request as three plain numbers, before a caller has put it on the ports: numbers may be too wide for them. -/
structure RawRequest where
  op : Nat
  a : Nat
  b : Nat
  deriving DecidableEq, Repr

/-- An operand in the notation of R50: a hexadecimal pattern, or `%j`, the result of line `j`. -/
inductive Operand where
  | pattern (v : Word)
  | result (j : Nat)
  deriving DecidableEq, Repr

/-- The right-hand side of a line `%k = ...` (R50), the pseudo-operations of R51 included. -/
inductive Line where
  | add (x y : Operand)
  | sub (x y : Operand)
  | mul (x y : Operand)
  | div (x y : Operand)
  | iszero (x : Operand)
  | isnan (x : Operand)
  | isinf (x : Operand)
  | classify (x : Operand)
  /-- `NEG x`, expanding to `SUB 0x0000, x` (R51) -/
  | neg (x : Operand)
  /-- `COPY x`, expanding to `ADD 0x0000, x` (R51) -/
  | copy (x : Operand)
  deriving DecidableEq, Repr

end Sys2Proof
end

