-- ==== Sys2Proof/WellFormed.lean ====
section
/-! DEFINITION. What a request must meet to be a request: numbers that fit the ports (10_state.md R17), and, in the
assembler notation, references to earlier lines only (30_encoding.md R50). No operand pattern is illegal (R21, R48). -/

namespace Sys2Proof

/-- The three numbers fit the ports: `op` 3 bits, `a` and `b` 16 bits each (R17, R41). -/
def RawRequest.wf (q : RawRequest) : Bool :=
  decide (q.op < 8) && decide (q.a < 65536) && decide (q.b < 65536)

/-- The operands of a request as numbers fit the operand ports (R17). `Word` carries the bound, and no pattern is
reserved or ill-formed (R21), so this holds of every request: `Sys2Proof.Laws.wf_all`. -/
def Instr.wf : Instr → Bool
  | .add a b => decide (a.toNat < 65536) && decide (b.toNat < 65536)
  | .sub a b => decide (a.toNat < 65536) && decide (b.toNat < 65536)
  | .mul a b => decide (a.toNat < 65536) && decide (b.toNat < 65536)
  | .div a b => decide (a.toNat < 65536) && decide (b.toNat < 65536)
  | .iszero a b => decide (a.toNat < 65536) && decide (b.toNat < 65536)
  | .isnan a b => decide (a.toNat < 65536) && decide (b.toNat < 65536)
  | .isinf a b => decide (a.toNat < 65536) && decide (b.toNat < 65536)
  | .classify a b => decide (a.toNat < 65536) && decide (b.toNat < 65536)

/-- On line `k`, an operand `%j` names an earlier line, `1 ≤ j < k` (R50). -/
def Operand.wf (k : Nat) : Operand → Bool
  | .pattern _ => true
  | .result j => decide (1 ≤ j) && decide (j < k)

/-- Every operand of line `k` names an earlier line (R50). -/
def Line.wf (k : Nat) : Line → Bool
  | .add x y => x.wf k && y.wf k
  | .sub x y => x.wf k && y.wf k
  | .mul x y => x.wf k && y.wf k
  | .div x y => x.wf k && y.wf k
  | .iszero x => x.wf k
  | .isnan x => x.wf k
  | .isinf x => x.wf k
  | .classify x => x.wf k
  | .neg x => x.wf k
  | .copy x => x.wf k

end Sys2Proof
end

