-- ==== Sys2Proof/Decode.lean ====
section
/-! DEFINITION. Decoding and encoding requests (30_encoding.md R41 to R43, R48, R49). -/

namespace Sys2Proof

/-- Why a number is no request. -/
inductive DecodeError where
  /-- The number has a bit set above bit 34, the top bit of the one format there is (R41, R49). Safe: nothing runs. -/
  | widerThanRequest
  deriving DecidableEq, Repr

/-- The operation map of R42, on the three bits of `op`, most significant first. Every value is assigned (R48). -/
def decodeFields (op : OpSel) (a b : Word) : Instr :=
  match op.getLsbD 2, op.getLsbD 1, op.getLsbD 0 with
  | false, false, false => .add a b
  | false, false, true => .sub a b
  | false, true, false => .mul a b
  | false, true, true => .div a b
  | true, false, false => .iszero a b
  | true, false, true => .isnan a b
  | true, true, false => .isinf a b
  | true, true, true => .classify a b

/-- The request a 35-bit word stands for (R41). Total: "every 35-bit word selects exactly one operation" (R42). -/
def decode (w : RequestWord) : Instr :=
  decodeFields (w.extractLsb' 32 3) (w.extractLsb' 16 16) (w.extractLsb' 0 16)

/-- Decoding a number: the words of R41, and a refusal by name above them (DESIGN CHOICE, log entry 7). -/
def decodeNumber (w : Nat) : Except DecodeError Instr :=
  if w < 2 ^ 35 then .ok (decode (BitVec.ofNat 35 w)) else .error .widerThanRequest

/-- The instruction the decoder reads from the low `nbits` bits of `w`, numbered as spec/opcode_table.json numbers
them; the bits above `nbits` are 0. -/
def decodeTableWord (nbits w : Nat) : Option Instr :=
  match decodeNumber (w % 2 ^ nbits) with
  | .ok i => some i
  | .error _ => none

/-- The `op` value of a request (R42). -/
def Instr.opSel : Instr → OpSel
  | .add _ _ => 0b000#3
  | .sub _ _ => 0b001#3
  | .mul _ _ => 0b010#3
  | .div _ _ => 0b011#3
  | .iszero _ _ => 0b100#3
  | .isnan _ _ => 0b101#3
  | .isinf _ _ => 0b110#3
  | .classify _ _ => 0b111#3

/-- The `a` field of a request (R41). -/
def Instr.operandA : Instr → Word
  | .add a _ => a
  | .sub a _ => a
  | .mul a _ => a
  | .div a _ => a
  | .iszero a _ => a
  | .isnan a _ => a
  | .isinf a _ => a
  | .classify a _ => a

/-- The `b` field of a request (R41); don't-care for a unary operation (R46). -/
def Instr.operandB : Instr → Word
  | .add _ b => b
  | .sub _ b => b
  | .mul _ b => b
  | .div _ b => b
  | .iszero _ b => b
  | .isnan _ b => b
  | .isinf _ b => b
  | .classify _ b => b

/-- The three fields of R41 side by side, `op` highest. -/
def packRequest (op : OpSel) (a b : Word) : RequestWord :=
  (op ++ a ++ b : BitVec (3 + 16 + 16))

/-- The word of a request, `w = (op << 32) | (a << 16) | b` (R41). -/
def encode (i : Instr) : RequestWord :=
  packRequest i.opSel i.operandA i.operandB

/-- The word of three numbers that fit the ports, by R41's formula. -/
def RawRequest.word (q : RawRequest) : Nat :=
  (q.op <<< 32) ||| (q.a <<< 16) ||| q.b

end Sys2Proof
end

