-- ==== Sys2Proof/Machine/Literals.lean ====
section
/-! DEFINITION. The parameters the source fixes (00_scope.md R8), under the spec's names. They are taken as written,
unaudited (R7; 93_implementation_defined.md section 3; log entry 16). -/

namespace Sys2Proof.Machine

/-- `BIAS` (R8) -/
def bias : Nat := 127

/-- `EXP_MAX` (R8): the stored exponent of infinity and NaN. -/
def expMax : Nat := 255

/-- `CANON_NAN` (R8, R55): sign 0, exponent 255, mantissa 0x40. -/
def canonNaN : Word := 0x7FC0#16

/-- `CANON_ZERO` (R8, R55; decision D26). -/
def canonZero : Word := 0x0000#16

/-- `CLZ_W` (R8): the width of the leading-zero count. -/
def clzWidth : Nat := 32

/-- `ADD_SKIP` (R8): the early exit is taken when the exponent difference exceeds it. -/
def addSkip : Int := 8

/-- `MUL_DENORM_FLOOR` (R8): below it a product is flushed. -/
def mulDenormFloor : Int := -6

/-- `DIV_ITERS` (R8) -/
def divIters : Nat := 16

/-- `DIV_PRESHIFT` (R8) -/
def divPreshift : Nat := 15

/-- The final quotient shift (R8). -/
def quotientShift : Nat := 8

end Sys2Proof.Machine
end

