-- ==== Sys2Proof/Config.lean ====
section
/-! DEFINITION. The five behaviours an instance of the unit fixes (00_scope.md R9).

"A model takes each as an argument": they are a field of the machine's state that no step changes (R29, R116), so
that a statement about every state holds for all 32 combinations. The values the source fixes (R8) are in
Sys2Proof/Machine/Literals.lean. No behaviour is a free value (93_implementation_defined.md section 1). -/

namespace Sys2Proof

/-- `ADD_OVERFLOW_RESULT` (R9, R75; decision D10, conflict C1): what an add gives when the exponent reaches 255. -/
inductive AddOverflowResult where
  | signedInfinity
  | canonicalNaN
  deriving DecidableEq, Repr

/-- `ADD_FLUSH_SIGN` (R9, R79; decision D11): the sign of the zero a cancellation flushes to. -/
inductive AddFlushSign where
  | resultSign
  | positive
  deriving DecidableEq, Repr

/-- `MUL_SUBNORMAL_SOURCE` (R9, R90; decision D14): which mantissa the denormal product path shifts. -/
inductive MulSubnormalSource where
  | significand8
  | fraction7
  deriving DecidableEq, Repr

/-- `DIV_DENORM_ADJ` (R9, R98; decision D17): the direction of the ±1 exponent correction for a denormal. -/
inductive DivDenormAdj where
  | valueCorrect
  | inverted
  deriving DecidableEq, Repr

/-- `DIV_SPECIAL_ORDER` (R9, R95; decision D16, conflict C8): the order of the divider's special cases. -/
inductive DivSpecialOrder where
  | naNFirst
  | divisorFirst
  deriving DecidableEq, Repr

/-- The parameters of one instance of the unit (R9): fixed when the instance is made, for its whole life (R16, R29). -/
structure Params where
  addOverflowResult : AddOverflowResult
  addFlushSign : AddFlushSign
  mulSubnormalSource : MulSubnormalSource
  divDenormAdj : DivDenormAdj
  divSpecialOrder : DivSpecialOrder
  deriving DecidableEq, Repr

/-- The defaults of R9's table. -/
def Params.default : Params where
  addOverflowResult := .signedInfinity
  addFlushSign := .resultSign
  mulSubnormalSource := .significand8
  divDenormAdj := .valueCorrect
  divSpecialOrder := .naNFirst

end Sys2Proof
end

