-- ==== Sys2Proof/Machine/State.lean ====
section
/-! DEFINITION. What the machine holds: the ports of the unit (10_state.md R17) and the instance's parameters
(00_scope.md R9). The unit itself holds no architectural state (R15): no register, flag, program counter, control
register or memory (R25 to R28, 20_memory.md R30), so there is no field for one. -/

namespace Sys2Proof.Machine

/-- The ports and the instance's parameters, as plain data (log entries 1 and 4). -/
structure State where
  /-- The parameters of this instance (R9). No step changes them (R29, R116). -/
  params : Params
  /-- Input port `op` (R17), driven by the caller (R121). -/
  op : OpSel
  /-- Input port `a` (R17). -/
  a : Word
  /-- Input port `b` (R17). -/
  b : Word
  /-- Output port `r` (R17): the result of the last request (R121; log entry 5). -/
  r : Word
  deriving DecidableEq, Repr

/-- There is no fault: "No request raises an exception, trap or fault" (60_exceptions.md R105). The type is closed
and has no constructor, so no step can raise one (log entry 12). -/
inductive Fault where
  deriving DecidableEq, Repr

/-- Why a step could have no meaning. No request of this unit is refused (R105). -/
inductive Refusal where
  /-- An instruction that has no meaning in this model yet: raised by an arm of `exec` only, and by none of them now.
  Safe: the machine stops. -/
  | notModelled (mnemonic : String)
  deriving DecidableEq, Repr

/-- An instance of the unit with the parameters `p`, powered up with its input ports at 0 (DESIGN CHOICE, log entry 2:
there is no reset and the caller drives the inputs, R115). `r` is then what R29 makes of those inputs:
`ADD(0x0000, 0x0000) = 0x0000` (log entry 3). -/
def State.resetFor (p : Params) : State where
  params := p
  op := 0#3
  a := 0#16
  b := 0#16
  r := 0#16

/-- The instance with the defaults of R9 (log entry 4). -/
def State.reset : State :=
  State.resetFor Params.default

end Sys2Proof.Machine
end

