-- ==== Sys2Proof/Machine/Ops.lean ====
section
/-! DEFINITION. The named operations over the ports, and the encoding of results (40_classifier.md R54, R55;
30_encoding.md R47).

There is no operation for taking an exception or returning from one: "the unit saves no state, changes no mode, and
has no vector, base register or handler address. It has no return-from-trap operation" (60_exceptions.md R110). -/

namespace Sys2Proof.Machine

/-! ### Ports -/

/-- The request present on the input ports, as one word (R41). -/
def State.requestWord (s : State) : RequestWord :=
  packRequest s.op s.a s.b

/-- The request present on the input ports (R41, R42). The unit fetches nothing else (R25). -/
def fetch (s : State) : Instr :=
  decode s.requestWord

/-- The caller drives the three inputs with the fields of a request word (R121, first and third rows). -/
def State.driveRequest (s : State) (w : RequestWord) : State :=
  { s with op := w.extractLsb' 32 3, a := w.extractLsb' 16 16, b := w.extractLsb' 0 16 }

/-- `return r` "drives `r` on the result port" (R12). -/
def driveResult (v : Word) (s : State) : State :=
  { s with r := v }

/-- `return r` ends the operation (R12): a request always returns a result (60_exceptions.md R105) and changes
nothing but `r` (20_memory.md R35). -/
def answer (v : Word) (s : State) : Host.Outcome State Fault Refusal :=
  .next (driveResult v s)

/-! ### Result patterns -/

/-- `enc(s, e, m)`, masking the exponent to 8 bits and the mantissa to 7 before packing (R54). -/
def enc (s e m : Nat) : Word :=
  BitVec.ofNat 16 (((s &&& 1) <<< 15) ||| ((e &&& 0xFF) <<< 7) ||| (m &&& 0x7F))

/-- `signedZero(s) = enc(s, 0, 0)` (R55) -/
def signedZero (s : BitVec 1) : Word :=
  enc s.toNat 0 0

/-- `signedInf(s) = enc(s, 255, 0)` (R55) -/
def signedInf (s : BitVec 1) : Word :=
  enc s.toNat expMax 0

/-- A predicate on the result port: `0x0001` for true, `0x0000` for false (R47; decision D4). -/
def boolResult (c : Bool) : Word :=
  if c then 0x0001#16 else 0x0000#16

end Sys2Proof.Machine
end

