-- ==== Sys2Proof/Machine/Operands.lean ====
section
/-! DEFINITION. The operand forms: decomposition (30_encoding.md R43, 40_classifier.md R52), the significand (R44) and
the subtract operand (R45). -/

namespace Sys2Proof.Machine

/-- The three fields of a pattern (10_state.md R19), with the widths of the sub-unit interface (R18). -/
structure Fields where
  s : BitVec 1
  e : BitVec 8
  m : BitVec 7
  deriving DecidableEq, Repr

/-- `dec(v)`: sign `v[15]`, exponent `v[14:7]`, mantissa `v[6:0]` (R52). -/
def dec (v : Word) : Fields where
  s := v.extractLsb' 15 1
  e := v.extractLsb' 7 8
  m := v.extractLsb' 0 7

/-- `sig = 0x80 | m` when `e ≠ 0`, and `sig = m` when `e = 0` (R44). -/
def significand (f : Fields) : Nat :=
  if f.e ≠ 0#8 then 0x80 ||| f.m.toNat else f.m.toNat

/-- The pattern with its sign bit flipped, for every pattern, NaN and infinity included (R45). -/
def flipSign (v : Word) : Word :=
  v ^^^ 0x8000#16

/-- `enc(dec(v))`, the two halves of the source's round trip put together (40_classifier.md R56). -/
def recode (v : Word) : Word :=
  enc (dec v).s.toNat (dec v).e.toNat (dec v).m.toNat

end Sys2Proof.Machine
end

