-- ==== Sys2Proof/Machine/Flags.lean ====
section
/-! DEFINITION. The field predicates (40_classifier.md R53). The unit has no status flag, condition code or sticky
exception flag (10_state.md R26), so nothing else is computed here. -/

namespace Sys2Proof.Machine

/-- `isZeroF` (R53) -/
def isZeroF (f : Fields) : Bool :=
  decide (f.e = 0#8) && decide (f.m = 0#7)

/-- `isDenF` (R53) -/
def isDenF (f : Fields) : Bool :=
  decide (f.e = 0#8) && decide (f.m ≠ 0#7)

/-- `isNormF` (R53) -/
def isNormF (f : Fields) : Bool :=
  decide (1 ≤ f.e.toNat) && decide (f.e.toNat ≤ 254)

/-- `isInfF` (R53) -/
def isInfF (f : Fields) : Bool :=
  decide (f.e = 255#8) && decide (f.m = 0#7)

/-- `isNaNF` (R53) -/
def isNaNF (f : Fields) : Bool :=
  decide (f.e = 255#8) && decide (f.m ≠ 0#7)

end Sys2Proof.Machine
end

