-- ==== Sys2Proof/Machine/Normalizer.lean ====
section
/-! DEFINITION. bfloat16_normalizer (41_normalizer.md): the leading-zero count and the renormalisation shifts. No `op`
selects them (10_state.md R18). Each shift is defined for every number; the range a rule requires is in its
docstring, and every call keeps to it (log entry 11). Every right shift drops the bits shifted out (R67). -/

namespace Sys2Proof.Machine

/-- The loop of R62: `i` bits are still to be looked at, bit `i - 1` next, with `n` zeros counted so far. -/
def clzLoop (x : BitVec 32) : (i n : Nat) → Nat
  | 0, n => n
  | i + 1, n => if x.getLsbD i then n else clzLoop x i (n + 1)

/-- `clz32(x)` (R62): the number of leading zero bits, 32 when `x = 0`. -/
def clz32 (x : BitVec 32) : Nat :=
  if x = 0#32 then 32 else clzLoop x clzWidth 0

/-- The normalizer sub-unit's count port `clz[5:0]` (R18): 0 to 32 fits in 6 bits (R62). -/
def normalizer (x : BitVec 32) : BitVec 6 :=
  BitVec.ofNat 6 (clz32 x)

/-- A shift count and the shifted value, the pair the shifts of R63 to R66 return. -/
structure Shifted where
  count : Nat
  value : Nat
  deriving DecidableEq, Repr

/-- `normLeft8(x)` for `1 ≤ x ≤ 0xFF` (R63). -/
def normLeft8 (x : Nat) : Shifted where
  count := clz32 (BitVec.ofNat 32 x) - 24
  value := x <<< (clz32 (BitVec.ofNat 32 x) - 24)

/-- `normLeft16(q)` for `1 ≤ q ≤ 0xFFFF` (R64). -/
def normLeft16 (q : Nat) : Shifted where
  count := clz32 (BitVec.ofNat 32 q) - 16
  value := q <<< (clz32 (BitVec.ofNat 32 q) - 16)

/-- `normRight9(x)` for `0 ≤ x ≤ 0x1FE` (R65): at most one right shift. -/
def normRight9 (x : Nat) : Shifted :=
  if x.testBit 8 then ⟨1, x >>> 1⟩ else ⟨0, x⟩

/-- `normProd(p)` for `0x4000 ≤ p ≤ 0xFE01` (R66). -/
def normProd (p : Nat) : Shifted :=
  if p.testBit 15 then ⟨1, (p >>> 8) &&& 0xFF⟩ else ⟨0, (p >>> 7) &&& 0xFF⟩

end Sys2Proof.Machine
end

