-- ==== Sys2Proof/Machine/Adder.lean ====
section
/-! DEFINITION. bfloat16_adder (42_adder.md): the add datapath, step by step as R70 to R80 give it, and ADD and SUB
(R81, R82). A step that may `return` answers an `Option`: `some r` returns `r`, `none` goes on. -/

namespace Sys2Proof.Machine

/-- NaN and infinity operands, "checked before arithmetic" (R70). -/
def addNaNInf (a b : Word) : Option Word :=
  let fa := dec a
  let fb := dec b
  if fa.e = 255#8 then
    if fa.m ≠ 0#7 then some a
    else if fb.e = 255#8 then
      if fb.m ≠ 0#7 then some b
      else if fa.s = fb.s then some a
      else some canonNaN
    else some a
  else if fb.e = 255#8 then some b
  else none

/-- Zero operands, `a` before `b` (R71; decision D12). -/
def addZero (a b : Word) : Option Word :=
  if isZeroF (dec a) then some b
  else if isZeroF (dec b) then some a
  else none

/-- What alignment gives: the early exit's pattern, or the aligned significands with the result exponent (R73). -/
inductive Alignment where
  | early (v : Word)
  | aligned (siga sigb re : Nat)
  deriving DecidableEq, Repr

/-- Alignment and the early exit, on stored exponents, a denormal's being 0 (R72, R73). -/
def align (a b : Word) : Alignment :=
  let siga := significand (dec a)
  let sigb := significand (dec b)
  let ea := (dec a).e.toNat
  let eb := (dec b).e.toNat
  let d : Int := (ea : Int) - (eb : Int)
  if d > 0 then
    if d > addSkip then .early a else .aligned siga (sigb >>> d.toNat) ea
  else if d < 0 then
    if d < -addSkip then .early b else .aligned (siga >>> (-d).toNat) sigb eb
  else .aligned siga sigb ea

/-- `addOverflow(rs)` (R75; decision D10, conflict C1). -/
def addOverflow (p : Params) (rs : BitVec 1) : Word :=
  match p.addOverflowResult with
  | .signedInfinity => signedInf rs
  | .canonicalNaN => canonNaN

/-- `addFlush(rs)` (R79; decision D11). -/
def addFlush (p : Params) (rs : BitVec 1) : Word :=
  match p.addFlushSign with
  | .resultSign => signedZero rs
  | .positive => canonZero

/-- Same signs: the significands add, with at most one right shift (R74, R75), and the sum is packed (R80). -/
def addSameSign (p : Params) (rs : BitVec 1) (siga sigb re : Nat) : Word :=
  let n := normRight9 (siga + sigb)
  let re' := re + n.count
  if n.count = 1 ∧ re' ≥ expMax then addOverflow p rs else enc rs.toNat re' n.value

/-- The cancellation loop of R78, `none` when it flushes. Its first argument is its bound, 7 iterations
(60_exceptions.md R106; log entry 10). -/
def cancelLoop : (bound x : Nat) → (re : Int) → Option (Nat × Int)
  | 0, x, re => some (x, re)
  | bound + 1, x, re =>
    if x.testBit 7 then some (x, re)
    else if re - 1 ≤ 0 then none
    else cancelLoop bound (x <<< 1) (re - 1)

/-- Opposite signs: the smaller aligned significand is subtracted from the larger (R76), exact cancellation gives
`CANON_ZERO` (R77), and the difference is renormalised or flushed (R78, R79) and packed (R80). -/
def addOppositeSign (p : Params) (sa sb : BitVec 1) (siga sigb re : Nat) : Word :=
  let rs := if siga ≥ sigb then sa else sb
  let x := if siga ≥ sigb then siga - sigb else sigb - siga
  if x = 0 then canonZero
  else
    match cancelLoop 7 x (re : Int) with
    | none => addFlush p rs
    | some (x', re') => enc rs.toNat re'.toNat x'

/-- Finite nonzero operands (R72 to R80). -/
def addFinite (p : Params) (a b : Word) : Word :=
  match align a b with
  | .early v => v
  | .aligned siga sigb re =>
    if (dec a).s = (dec b).s then addSameSign p (dec a).s siga sigb re
    else addOppositeSign p (dec a).s (dec b).s siga sigb re

/-- The adder sub-unit with its `negB` input (R18): the steps of R81 in order, on `b` or on `b` with its sign
flipped (R45). -/
def adder (p : Params) (a b : Word) (negB : Bool) : Word :=
  let b' := if negB then flipSign b else b
  match addNaNInf a b' with
  | some v => v
  | none =>
    match addZero a b' with
    | some v => v
    | none => addFinite p a b'

/-- `ADD a, b` (R81). -/
def execAdd (a b : Word) (s : State) : Host.Outcome State Fault Refusal :=
  answer (adder s.params a b false) s

/-- `SUB a, b`, `add(a, b with sign bit flipped)` (R82). -/
def execSub (a b : Word) (s : State) : Host.Outcome State Fault Refusal :=
  answer (adder s.params a b true) s

end Sys2Proof.Machine
end

