-- ==== Sys2Proof/Machine/Classifier.lean ====
section
/-! DEFINITION. bfloat16_classifier (40_classifier.md): the sub-unit of 10_state.md R18 and the four unary operations
ISZERO, ISNAN, ISINF, CLASS (R57 to R60). -/

namespace Sys2Proof.Machine

/-- The five classes (10_state.md R20), in the order of `CLASS` (R60). -/
inductive BfClass where
  | zero
  | infinity
  | nan
  | normal
  | denormal
  deriving DecidableEq, Repr

/-- The class of a pattern's fields, by the tests of R60 in their order. -/
def classOf (f : Fields) : BfClass :=
  if isZeroF f then .zero
  else if isInfF f then .infinity
  else if isNaNF f then .nan
  else if isNormF f then .normal
  else .denormal

/-- The class codes of R60 (decision D5). -/
def classCode : BfClass → BitVec 3
  | .zero => 0#3
  | .infinity => 1#3
  | .nan => 2#3
  | .normal => 3#3
  | .denormal => 4#3

/-- The outputs of the classifier sub-unit (R18). -/
structure ClassifierOut where
  fields : Fields
  cls : BitVec 3
  isz : Bool
  isn : Bool
  isi : Bool
  deriving DecidableEq, Repr

/-- The classifier sub-unit: decompose, classify and the three predicates (R18, R52, R53, R60). -/
def classifier (v : Word) : ClassifierOut where
  fields := dec v
  cls := classCode (classOf (dec v))
  isz := isZeroF (dec v)
  isn := isNaNF (dec v)
  isi := isInfF (dec v)

/-- `ISZERO a` (R57); `b` is ignored (30_encoding.md R46). -/
def execIsZero (a _b : Word) (s : State) : Host.Outcome State Fault Refusal :=
  answer (boolResult (classifier a).isz) s

/-- `ISNAN a` (R58); `b` is ignored (R46). -/
def execIsNaN (a _b : Word) (s : State) : Host.Outcome State Fault Refusal :=
  answer (boolResult (classifier a).isn) s

/-- `ISINF a` (R59); `b` is ignored (R46). -/
def execIsInf (a _b : Word) (s : State) : Host.Outcome State Fault Refusal :=
  answer (boolResult (classifier a).isi) s

/-- `CLASS a`: the class code zero-extended to 16 bits (R60, R47); `b` is ignored (R46). -/
def execClass (a _b : Word) (s : State) : Host.Outcome State Fault Refusal :=
  answer ((classifier a).cls.setWidth 16) s

end Sys2Proof.Machine
end

