-- ==== Sys2Proof/Machine/Multiplier.lean ====
section
/-! DEFINITION. bfloat16_multiplier (43_multiplier.md): the multiply datapath, R84 to R91, and MUL (R92). -/

namespace Sys2Proof.Machine

/-- The XOR of the operand signs, "computed unconditionally" (R84, R94). -/
def xorSign (a b : Word) : BitVec 1 :=
  (dec a).s ^^^ (dec b).s

/-- The special cases of R85, in its order; `none` when both operands are finite and nonzero. -/
def mulSpecial (a b : Word) : Option Word :=
  let fa := dec a
  let fb := dec b
  let rs := xorSign a b
  if isNaNF fa then some a
  else if isNaNF fb then some b
  else if isInfF fa then
    if isZeroF fb then some canonNaN else some (signedInf rs)
  else if isInfF fb then
    if isZeroF fa then some canonNaN else some (signedInf rs)
  else if isZeroF fa || isZeroF fb then some (signedZero rs)
  else none

/-- A multiplier operand made ready (R86): its normalised significand, the exponent it takes into the sum, and the
shifts it adds to the running adjustment. -/
structure Prepared where
  sig : Nat
  e : Nat
  shift : Nat
  deriving DecidableEq, Repr

/-- Operand preparation (R86): a denormal is normalised and takes exponent 1 (decision D13); a normal operand gets its
implicit bit. -/
def mulPrepare (v : Word) : Prepared :=
  let f := dec v
  if f.e = 0#8 then
    let n := normLeft8 f.m.toNat
    ⟨n.value, 1, n.count⟩
  else ⟨0x80 ||| f.m.toNat, f.e.toNat, 0⟩

/-- The exponent sum of two prepared operands, less the bias and with the running adjustment, before the carry of the
product (R87). -/
def mulExponentSum (pa pb : Prepared) : Int :=
  (pa.e : Int) + (pb.e : Int) - (bias : Int) + (-(pa.shift : Int) - (pb.shift : Int))

/-- The mantissa the denormal path shifts (R90; decision D14). -/
def mulSubnormalMantissa (p : Params) (sig : Nat) : Nat :=
  match p.mulSubnormalSource with
  | .significand8 => sig
  | .fraction7 => sig &&& 0x7F

/-- The end of the datapath, on the final exponent and the 8-bit significand (R88 to R91). -/
def mulPack (p : Params) (rs : BitVec 1) (re : Int) (sig : Nat) : Word :=
  if re ≥ (expMax : Int) then signedInf rs
  else if re < mulDenormFloor then signedZero rs
  else if re ≤ 0 then enc rs.toNat 0 (mulSubnormalMantissa p sig >>> (1 - re).toNat)
  else enc rs.toNat re.toNat sig

/-- Finite nonzero operands (R86 to R91). -/
def mulFinite (p : Params) (a b : Word) : Word :=
  let pa := mulPrepare a
  let pb := mulPrepare b
  let n := normProd (pa.sig * pb.sig)
  mulPack p (xorSign a b) (mulExponentSum pa pb + (n.count : Int)) n.value

/-- The multiplier sub-unit (R18, R92). -/
def multiplier (p : Params) (a b : Word) : Word :=
  match mulSpecial a b with
  | some v => v
  | none => mulFinite p a b

/-- `MUL a, b` (R92). -/
def execMul (a b : Word) (s : State) : Host.Outcome State Fault Refusal :=
  answer (multiplier s.params a b) s

end Sys2Proof.Machine
end

