-- ==== Sys2Proof/Machine/Divider.lean ====
section
/-! DEFINITION. bfloat16_divider (44_divider.md): the divide datapath, R94 to R102, and DIV (R103). The result sign is
`xorSign` (R94), the multiplier's. -/

namespace Sys2Proof.Machine

/-- The special cases under `NaNFirst` (R95). -/
def divSpecialNaNFirst (a b : Word) : Option Word :=
  let fa := dec a
  let fb := dec b
  let rs := xorSign a b
  if isNaNF fa then some a
  else if isNaNF fb then some b
  else if isInfF fa && isInfF fb then some canonNaN
  else if isZeroF fa && isZeroF fb then some canonNaN
  else if isInfF fa then some (signedInf rs)
  else if isInfF fb then some (signedZero rs)
  else if isZeroF fb then some (signedInf rs)
  else if isZeroF fa then some (signedZero rs)
  else none

/-- The special cases under `DivisorFirst` (R95). -/
def divSpecialDivisorFirst (a b : Word) : Option Word :=
  let fa := dec a
  let fb := dec b
  let rs := xorSign a b
  if fb.e = 255#8 then
    if fb.m ≠ 0#7 then some b
    else if isInfF fa then some canonNaN
    else some (signedZero rs)
  else if isZeroF fb then
    if isZeroF fa then some canonNaN else some (signedInf rs)
  else if fa.e = 255#8 then
    if fa.m ≠ 0#7 then some a else some (signedInf rs)
  else if isZeroF fa then some (signedZero rs)
  else none

/-- The special cases in the instance's order (R95; decision D16, conflict C8). -/
def divSpecial (p : Params) (a b : Word) : Option Word :=
  match p.divSpecialOrder with
  | .naNFirst => divSpecialNaNFirst a b
  | .divisorFirst => divSpecialDivisorFirst a b

/-- The remainder and the quotient of restoring division (R97). -/
structure DivRegs where
  rem : Nat
  q : Nat
  deriving DecidableEq, Repr

/-- One iteration of R97 with the divisor shifted left by `j = 15 - i`: subtract it where that would not go negative,
else keep the remainder. The quotient stays 16 bits wide. -/
def divIter (sigb j : Nat) (d : DivRegs) : DivRegs :=
  let q := (d.q <<< 1) &&& 0xFFFF
  let t := sigb <<< j
  if d.rem ≥ t then ⟨d.rem - t, q ||| 1⟩ else ⟨d.rem, q⟩

/-- The last `n` iterations of R97, the divisor's shift falling from `n - 1` to 0. -/
def divLoop (sigb : Nat) : (n : Nat) → DivRegs → DivRegs
  | 0, d => d
  | n + 1, d => divLoop sigb n (divIter sigb n d)

/-- Restoring division (R97): 16 iterations on the dividend pre-shifted by 15. -/
def restoringDivide (siga sigb : Nat) : DivRegs :=
  divLoop sigb divIters ⟨siga <<< divPreshift, 0⟩

/-- `denormAdj(ea, eb)` (R98, R103; decision D17). -/
def denormAdj (p : Params) (ea eb : BitVec 8) : Int :=
  let v : Int := (if ea = 0#8 then 1 else 0) + (if eb = 0#8 then -1 else 0)
  match p.divDenormAdj with
  | .valueCorrect => v
  | .inverted => -v

/-- The result exponent before renormalisation, on stored exponents, with the denormal correction (R98). -/
def divExponent (p : Params) (ea eb : BitVec 8) : Int :=
  (ea.toNat : Int) - (eb.toNat : Int) + (bias : Int) + denormAdj p ea eb

/-- The quotient renormalisation loop of R99. Its first argument is its bound, 8 iterations (60_exceptions.md R106;
log entry 10). -/
def quotientLoop : (bound q : Nat) → (re : Int) → Nat × Int
  | 0, q, re => (q, re)
  | bound + 1, q, re =>
    if q.testBit 15 then (q, re) else quotientLoop bound ((q <<< 1) &&& 0xFFFF) (re - 1)

/-- The end of the datapath, on the final exponent and the 8-bit quotient (R100 to R102). -/
def divPack (rs : BitVec 1) (re : Int) (q8 : Nat) : Word :=
  if re ≥ (expMax : Int) then signedInf rs
  else if re ≤ 0 then signedZero rs
  else enc rs.toNat re.toNat q8

/-- Finite nonzero operands (R96 to R102). -/
def divFinite (p : Params) (a b : Word) : Word :=
  let q := (restoringDivide (significand (dec a)) (significand (dec b))).q
  let n := quotientLoop 8 q (divExponent p (dec a).e (dec b).e)
  divPack (xorSign a b) n.2 (n.1 >>> quotientShift)

/-- The divider sub-unit (R18, R103). -/
def divider (p : Params) (a b : Word) : Word :=
  match divSpecial p a b with
  | some v => v
  | none => divFinite p a b

/-- `DIV a, b`, `a` the dividend (R103). -/
def execDiv (a b : Word) (s : State) : Host.Outcome State Fault Refusal :=
  answer (divider s.params a b) s

end Sys2Proof.Machine
end

