-- ==== Sys2Proof/Machine/Dispatch.lean ====
section
/-! DEFINITION. One arm per operation of 30_encoding.md R42. -/

namespace Sys2Proof.Machine

def exec (i : Instr) (s : State) : Host.Outcome State Fault Refusal :=
  match i with
  | .add a b => Sys2Proof.Machine.execAdd a b s
  | .sub a b => Sys2Proof.Machine.execSub a b s
  | .mul a b => Sys2Proof.Machine.execMul a b s
  | .div a b => Sys2Proof.Machine.execDiv a b s
  | .iszero a b => Sys2Proof.Machine.execIsZero a b s
  | .isnan a b => Sys2Proof.Machine.execIsNaN a b s
  | .isinf a b => Sys2Proof.Machine.execIsInf a b s
  | .classify a b => Sys2Proof.Machine.execClass a b s

end Sys2Proof.Machine
end

