-- ==== Sys2Proof/Machine/Step.lean ====
section
/-! DEFINITION. One request is one atomic step: `(op, a, b) ↦ r` (70_reset_and_hazards.md R121). -/

namespace Sys2Proof.Machine

/-- The unit applies the request on its input ports. -/
def step (s : State) : Host.Outcome State Fault Refusal :=
  exec (fetch s) s

/-- The caller drives the request whose low `nbits` bits are `w` onto the input ports (R121): the ports are where
`step` finds its next request, and nothing else is needed (log entry 6). The ports carry the 35 bits of R41. -/
def State.withFetchWord (s : State) (nbits w : Nat) : State :=
  s.driveRequest (BitVec.ofNat 35 (w % 2 ^ nbits))

end Sys2Proof.Machine
end

