-- ==== Sys2Proof/Machine/Caller.lean ====
section
/-! DEFINITION. The caller's side as far as the spec gives it: the contract of 70_reset_and_hazards.md R121, and the
assembler notation and pseudo-operations of 30_encoding.md R50 and R51. The unit holds none of this (R15, R50). -/

namespace Sys2Proof.Machine

/-- The caller drives a request and the unit applies it (R121, first two rows). -/
def request (i : Instr) (s : State) : Host.Outcome State Fault Refusal :=
  step (s.driveRequest (encode i))

/-- Why a line does not assemble. -/
inductive AsmError where
  /-- `%j` where the caller holds no result of a line `j` (R50). Safe: no request is made. -/
  | notHeld (j : Nat)
  deriving DecidableEq, Repr

/-- The value of an operand, `held` being the results of lines 1, 2, … in order (R50; log entry 19). -/
def operandValue (held : List Word) : Operand → Except AsmError Word
  | .pattern v => .ok v
  | .result 0 => .error (.notHeld 0)
  | .result (j + 1) =>
    match held[j]? with
    | some v => .ok v
    | none => .error (.notHeld (j + 1))

/-- A binary line with the values of its operands substituted (R50). -/
def assemble2 (f : Word → Word → Instr) (held : List Word) (x y : Operand) : Except AsmError Instr :=
  match operandValue held x, operandValue held y with
  | .ok v, .ok w => .ok (f v w)
  | .error e, _ => .error e
  | .ok _, .error e => .error e

/-- The request a line stands for (R50). A unary line writes `b` as `0x0000`. `NEG x` is `SUB 0x0000, x` and
`COPY x` is `ADD 0x0000, x` (R51). -/
def assemble (held : List Word) : Line → Except AsmError Instr
  | .add x y => assemble2 .add held x y
  | .sub x y => assemble2 .sub held x y
  | .mul x y => assemble2 .mul held x y
  | .div x y => assemble2 .div held x y
  | .iszero x => assemble2 .iszero held x (.pattern 0x0000#16)
  | .isnan x => assemble2 .isnan held x (.pattern 0x0000#16)
  | .isinf x => assemble2 .isinf held x (.pattern 0x0000#16)
  | .classify x => assemble2 .classify held x (.pattern 0x0000#16)
  | .neg x => assemble2 .sub held (.pattern 0x0000#16) x
  | .copy x => assemble2 .add held (.pattern 0x0000#16) x

/-- A caller: the unit it drives and the results it holds, line 1 first (R50). -/
structure Caller where
  unit : State
  held : List Word
  deriving DecidableEq, Repr

/-- The caller issues one line: it assembles it, makes the request and keeps the result (R50, R121). -/
def issue (l : Line) (c : Caller) : Except AsmError (Host.Outcome Caller Fault Refusal) :=
  match assemble c.held l with
  | .error e => .error e
  | .ok i =>
    match request i c.unit with
    | .next s => .ok (.next ⟨s, c.held ++ [s.r]⟩)
    | .fault x => .ok (.fault x)
    | .refused x => .ok (.refused x)

end Sys2Proof.Machine
end

