-- ==== Sys2Proof/Machine/Value.lean ====
section
/-! DEFINITION. The numeric value a pattern stands for (10_state.md R22). Informative: no operation computes it. -/

namespace Sys2Proof.Machine

/-- What a pattern stands for (R22). `finite` keeps the sign beside the magnitude, so that +0 and -0 differ. -/
inductive FpValue where
  | finite (negative : Bool) (magnitude : ℚ)
  | infinity (negative : Bool)
  | nan
  deriving DecidableEq, Repr

/-- The value of a pattern (R22). The denormal scale 2^(-126) is PRESUMED: the spec marks it as general knowledge
(93_implementation_defined.md G1; log entry 18). -/
def numericValue (v : Word) : FpValue :=
  let f := dec v
  let neg := decide (f.s = 1#1)
  if isNaNF f then .nan
  else if isInfF f then .infinity neg
  else if isNormF f then
    .finite neg ((2 : ℚ) ^ ((f.e.toNat : Int) - 127) * (1 + (f.m.toNat : ℚ) / 128))
  else .finite neg ((2 : ℚ) ^ (-126 : Int) * ((f.m.toNat : ℚ) / 128))

end Sys2Proof.Machine
end

