-- ==== Sys2Proof/Safety.lean ====
section
/-! DEFINITION. The terms the statements are written in: a pattern's fields read by plain arithmetic on its number, the
classes of 10_state.md R20, and what a settled and a legal output are. None of it is used by the machine. -/

namespace Sys2Proof

open Sys2Proof.Machine

/-! ### A pattern as a number (10_state.md R19) -/

/-- Bit 15 (R19): 0 or 1. -/
def signOf (v : Word) : Nat := v.toNat / 32768

/-- Bits 14 to 7 (R19): 0 to 255. -/
def expOf (v : Word) : Nat := v.toNat / 128 % 256

/-- Bits 6 to 0 (R19): 0 to 127. -/
def fracOf (v : Word) : Nat := v.toNat % 128

/-- The pattern with these three fields, for `s ≤ 1`, `e ≤ 255`, `m ≤ 127` (R19). -/
def packed (s e m : Nat) : Word := BitVec.ofNat 16 (s * 32768 + e * 128 + m)

/-- Class Zero (R20). -/
abbrev IsZero (v : Word) : Prop := expOf v = 0 ∧ fracOf v = 0

/-- Class Denormal (R20). -/
abbrev IsDenormal (v : Word) : Prop := expOf v = 0 ∧ fracOf v ≠ 0

/-- Class Normal (R20). -/
abbrev IsNormal (v : Word) : Prop := 1 ≤ expOf v ∧ expOf v ≤ 254

/-- Class Infinity (R20). -/
abbrev IsInf (v : Word) : Prop := expOf v = 255 ∧ fracOf v = 0

/-- Class NaN (R20). -/
abbrev IsNaN (v : Word) : Prop := expOf v = 255 ∧ fracOf v ≠ 0

/-- Zero, Denormal or Normal (40_classifier.md R53). -/
abbrev IsFinite (v : Word) : Prop := expOf v < 255

/-- Finite and not a zero: what reaches the arithmetic paths. -/
abbrev IsFiniteNonzero (v : Word) : Prop := IsFinite v ∧ ¬ IsZero v

/-- The 8-bit significand, with the implicit leading bit of a normal pattern (30_encoding.md R44). -/
def sigOf (v : Word) : Nat := if expOf v = 0 then fracOf v else 128 + fracOf v

/-- The XOR of the operand signs (43_multiplier.md R84, 44_divider.md R94). -/
def signXor (a b : Word) : Nat := (signOf a + signOf b) % 2

/-- The zero and the infinity with a given sign (40_classifier.md R55). -/
def zeroOf (s : Nat) : Word := packed s 0 0

/-- The infinity with a given sign (R55). -/
def infOf (s : Nat) : Word := packed s 255 0

/-- The magnitude of a finite pattern in units of 2^(-133), the smallest denormal's (10_state.md R22). -/
def scaledOf (v : Word) : Nat := sigOf v * 2 ^ (max 1 (expOf v) - 1)

/-- One unit in the last place of a finite pattern, in units of 2^(-133). -/
def ulpOf (v : Word) : Nat := 2 ^ (max 1 (expOf v) - 1)

/-! ### The adder's and the multiplier's intermediates, without loops -/

/-- A significand aligned to the larger exponent `e`, the bits shifted out lost (42_adder.md R73). -/
def alignedSig (v : Word) (e : Nat) : Nat := sigOf v / 2 ^ (e - expOf v)

/-- How many places a nonzero number below 256 is from having its bit 7 set. -/
def leftShift8 (x : Nat) : Nat := 7 - Nat.log2 x

/-- How many places a nonzero number below 65536 is from having its bit 15 set. -/
def leftShift16 (x : Nat) : Nat := 15 - Nat.log2 x

/-- The multiplier's normalised significand (43_multiplier.md R86). -/
def normSigOf (v : Word) : Nat :=
  if expOf v = 0 then fracOf v * 2 ^ leftShift8 (fracOf v) else 128 + fracOf v

/-- The exponent a multiplier operand adds to the sum, its adjustment included (R86). -/
def normExpOf (v : Word) : Int :=
  if expOf v = 0 then 1 - (leftShift8 (fracOf v) : Int) else (expOf v : Int)

/-- The remainder and quotient of restoring division after its first `i` iterations (44_divider.md R97). -/
def divPartial (x y : Nat) : (i : Nat) → DivRegs
  | 0 => ⟨x <<< 15, 0⟩
  | i + 1 => divIter y (15 - i) (divPartial x y i)

/-! ### The caller's operands -/

/-- The value of an operand of a line: its pattern, or the held result of the line it names, lines counting from 1
(30_encoding.md R50). -/
def OperandIs (held : List Word) : Operand → Word → Prop
  | .pattern u, v => v = u
  | .result j, v => 1 ≤ j ∧ held[j - 1]? = some v

/-! ### The unit as a loop-free reference

Each is the result an operation has by its rules, with divisions and logarithms in place of the loops. -/

/-- The sum of two finite nonzero like-signed operands whose stored exponents differ by at most 8
(42_adder.md R74, R75, R80): `x` at the larger exponent `e`, shifted right once when it reaches 256, or the
instance's overflow result. -/
def sumPattern (p : Params) (a b : Word) : Word :=
  let e := max (expOf a) (expOf b)
  let x := alignedSig a e + alignedSig b e
  if x < 256 then packed (signOf a) e (x % 128)
  else if e + 1 < 255 then packed (signOf a) (e + 1) (x / 2 % 128)
  else if p.addOverflowResult = .signedInfinity then infOf (signOf a)
  else 0x7FC0#16

/-- The difference of two finite nonzero opposite-signed operands whose stored exponents differ by at most 8
(R76 to R80): canonical zero, the instance's flush result, or the renormalised difference. -/
def differencePattern (p : Params) (a b : Word) : Word :=
  let e := max (expOf a) (expOf b)
  let x := alignedSig a e
  let y := alignedSig b e
  let d := if y ≤ x then x - y else y - x
  let sgn := if y ≤ x then signOf a else signOf b
  let k := leftShift8 d
  if x = y then 0x0000#16
  else if e ≤ k then (if p.addFlushSign = .resultSign then zeroOf sgn else 0x0000#16)
  else packed sgn (e - k) (d * 2 ^ k % 128)

/-- ADD in the order of 60_exceptions.md R108. -/
def addReference (p : Params) (a b : Word) : Word :=
  if IsNaN a then a
  else if IsInf a then
    if IsNaN b then b
    else if IsInf b ∧ signOf a ≠ signOf b then 0x7FC0#16
    else a
  else if ¬ IsFinite b then b
  else if IsZero a then b
  else if IsZero b then a
  else if expOf b + 8 < expOf a then a
  else if expOf a + 8 < expOf b then b
  else if signOf a = signOf b then sumPattern p a b
  else differencePattern p a b

/-- The product of two finite nonzero operands (43_multiplier.md R86 to R91). -/
def productPattern (p : Params) (a b : Word) : Word :=
  let n := normSigOf a * normSigOf b
  let sig := if 0x8000 ≤ n then n / 256 else n / 128
  let re : Int := normExpOf a + normExpOf b - 127 + (if 0x8000 ≤ n then 1 else 0)
  if 255 ≤ re then infOf (signXor a b)
  else if re < -6 then zeroOf (signXor a b)
  else if re ≤ 0 then
    packed (signXor a b) 0
      ((if p.mulSubnormalSource = .significand8 then sig else sig % 128) / 2 ^ (1 - re).toNat)
  else packed (signXor a b) re.toNat (sig % 128)

/-- MUL in the order of R108. -/
def mulReference (p : Params) (a b : Word) : Word :=
  if IsNaN a then a
  else if IsNaN b then b
  else if (IsInf a ∧ IsZero b) ∨ (IsZero a ∧ IsInf b) then 0x7FC0#16
  else if IsInf a ∨ IsInf b then infOf (signXor a b)
  else if IsZero a ∨ IsZero b then zeroOf (signXor a b)
  else productPattern p a b

/-- The quotient of two finite nonzero operands (44_divider.md R96 to R102). -/
def quotientPattern (p : Params) (a b : Word) : Word :=
  let q := min (sigOf a * 2 ^ 15 / sigOf b) 0xFFFF
  let k := leftShift16 q
  let c : Int := (if expOf a = 0 then 1 else 0) - (if expOf b = 0 then 1 else 0)
  let re : Int := (expOf a : Int) - (expOf b : Int) + 127 +
    (if p.divDenormAdj = .valueCorrect then c else -c) - (k : Int)
  if 255 ≤ re then infOf (signXor a b)
  else if re ≤ 0 then zeroOf (signXor a b)
  else packed (signXor a b) re.toNat (q * 2 ^ k / 256 % 128)

/-- DIV where no operand is a NaN: the two orders of R95 agree. -/
def divReferenceNumbers (p : Params) (a b : Word) : Word :=
  if (IsInf a ∧ IsInf b) ∨ (IsZero a ∧ IsZero b) then 0x7FC0#16
  else if IsInf a ∨ IsZero b then infOf (signXor a b)
  else if IsInf b ∨ IsZero a then zeroOf (signXor a b)
  else quotientPattern p a b

/-- DIV in the instance's order (R95, R108). -/
def divReference (p : Params) (a b : Word) : Word :=
  if p.divSpecialOrder = .naNFirst then
    if IsNaN a then a else if IsNaN b then b else divReferenceNumbers p a b
  else
    if IsNaN b then b
    else if IsNaN a then
      if IsInf b then zeroOf (signXor a b)
      else if IsZero b then infOf (signXor a b)
      else a
    else divReferenceNumbers p a b

/-- CLASS (40_classifier.md R60). -/
def classReference (a : Word) : Word :=
  if IsZero a then 0#16
  else if IsInf a then 1#16
  else if IsNaN a then 2#16
  else if IsNormal a then 3#16
  else 4#16

/-- The function of the unit, `r = F(op, a, b)` under the instance's parameters (70_reset_and_hazards.md R121), by the
operation map of 30_encoding.md R42. -/
def unitReference (p : Params) (op : OpSel) (a b : Word) : Word :=
  match op.toNat with
  | 0 => addReference p a b
  | 1 => addReference p a (b ^^^ 0x8000#16)
  | 2 => mulReference p a b
  | 3 => divReference p a b
  | 4 => if IsZero a then 1#16 else 0#16
  | 5 => if IsNaN a then 1#16 else 0#16
  | 6 => if IsInf a then 1#16 else 0#16
  | _ => classReference a

/-! ### Outputs -/

/-- The output port shows the function of the input ports (10_state.md R29). -/
def OutputSettled (s : State) : Prop :=
  s.r = unitReference s.params s.op s.a s.b

/-- The output patterns an operation can drive:
ADD and SUB show a denormal only when both operands have stored exponent 0 (10_state.md R24, 42_adder.md R80);
every MUL or DIV result that is not a NaN has the XOR sign (43_multiplier.md R93 item 4, 44_divider.md R94);
DIV shows no denormal (44_divider.md R104 item 3);
a predicate is 0 or 1 (30_encoding.md R47), and a class code is at most 4 (40_classifier.md R60). -/
def OutputLegal (s : State) : Prop :=
  (s.op.toNat ≤ 1 → IsDenormal s.r → expOf s.a = 0 ∧ expOf s.b = 0) ∧
  (s.op.toNat = 2 ∨ s.op.toNat = 3 → ¬ IsNaN s.r → signOf s.r = signXor s.a s.b) ∧
  (s.op.toNat = 3 → ¬ IsDenormal s.r) ∧
  (4 ≤ s.op.toNat → s.op.toNat ≤ 6 → s.r = 0#16 ∨ s.r = 1#16) ∧
  (s.op.toNat = 7 → s.r.toNat ≤ 4)

/-- What a safe run is here: every request ends with a result (60_exceptions.md R105) and changes nothing but `r`
(20_memory.md R35). -/
def SafeStep (s : State) : Prop :=
  ∃ v, step s = .next { s with r := v }

end Sys2Proof
end

