-- ==== Sys2Proof/Certificates/Slice0/Obligations.lean ====
section
/-! DEFINITION. The statements for the provers, from the numbered rules of spec/. Each
docstring begins with the title and ends with the rules or sections it rests on, as in OBLIGATIONS.json. -/

open Sys2Proof Sys2Proof.Machine

/-- A step runs the request decoded from the input ports, and adds nothing around it.
For every state, step is exec of the instruction that decode reads from the 35-bit word op, a, b on the input ports.
Hence when that word decodes to a well-formed i, or is the encoding of a well-formed i, step at that state is exec of
i at that state. Nothing else happens around exec: there is no program counter to move.
Derived from 30_encoding.md section 1, 70_reset_and_hazards.md section 4. -/
def Obligations.StepRunsRequestOnPorts : Prop :=
  ∀ s : State,
    step s = exec (decode (packRequest s.op s.a s.b)) s ∧
    (∀ i : Instr, i.wf = true → decode (packRequest s.op s.a s.b) = i → step s = exec i s) ∧
    (∀ i : Instr, i.wf = true → packRequest s.op s.a s.b = encode i → step s = exec i s)

/-- Decoding an encoded request gives it back, and encoding a decoded word gives the word back.
For every well-formed request i, with every pattern as a and as b: encode i has the number op*2^32 + a*2^16 + b,
decode (encode i) = i, and the number decoder gives i as well. For every 35-bit word w, encode (decode w) = w: no bit
of a word is dropped, the ignored b of a unary operation included (log entry 9).
Derived from 30_encoding.md section 1. -/
def Obligations.DecodeEncodeRoundTrip : Prop :=
  (∀ i : Instr, i.wf = true →
    (encode i).toNat = i.opSel.toNat * 2 ^ 32 + i.operandA.toNat * 2 ^ 16 + i.operandB.toNat ∧
    decode (encode i) = i ∧ decodeNumber (encode i).toNat = .ok i) ∧
  (∀ w : RequestWord, encode (decode w) = w)

/-- The number (op << 32) | (a << 16) | b decodes to the operation the map gives op, on a and b.
For all patterns a and b and each of the eight values of op, the request number of R41 for (op, a, b) decodes to that
row of the operation map of R42 with exactly these operands: 000 ADD, 001 SUB, 010 MUL, 011 DIV, 100 ISZERO, 101
ISNAN, 110 ISINF, 111 CLASS. The decode is total on 35-bit words: every word is one of these numbers.
Formalises R42. -/
def Obligations.DecodeFollowsOperationMap : Prop :=
  (∀ a b : Word,
    decodeNumber ((0 <<< 32) ||| (a.toNat <<< 16) ||| b.toNat) = .ok (.add a b) ∧
    decodeNumber ((1 <<< 32) ||| (a.toNat <<< 16) ||| b.toNat) = .ok (.sub a b) ∧
    decodeNumber ((2 <<< 32) ||| (a.toNat <<< 16) ||| b.toNat) = .ok (.mul a b) ∧
    decodeNumber ((3 <<< 32) ||| (a.toNat <<< 16) ||| b.toNat) = .ok (.div a b) ∧
    decodeNumber ((4 <<< 32) ||| (a.toNat <<< 16) ||| b.toNat) = .ok (.iszero a b) ∧
    decodeNumber ((5 <<< 32) ||| (a.toNat <<< 16) ||| b.toNat) = .ok (.isnan a b) ∧
    decodeNumber ((6 <<< 32) ||| (a.toNat <<< 16) ||| b.toNat) = .ok (.isinf a b) ∧
    decodeNumber ((7 <<< 32) ||| (a.toNat <<< 16) ||| b.toNat) = .ok (.classify a b)) ∧
  (∀ w : RequestWord, ∃ (op : Nat) (a b : Word), op < 8 ∧
    w.toNat = ((op <<< 32) ||| (a.toNat <<< 16) ||| b.toNat))

/-- Eight request words printed in the spec decode to the requests they stand for.
One printed word of each operation, as a table word of 40 bits: 0x03F803F80 is ADD 0x3F80, 0x3F80; 0x140404000 is SUB
0x4040, 0x4000; 0x240004040 is MUL 0x4000, 0x4040; 0x340C04000 is DIV 0x40C0, 0x4000; 0x480001234 is ISZERO 0x8000
with b 0x1234; 0x57FC00000 is ISNAN 0x7FC0; 0x67F800000 is ISINF 0x7F80; 0x73F80FFFF is CLASS 0x3F80 with b 0xFFFF.
Derived from 95_test_vectors.md section L1.1, 95_test_vectors.md section L2.1. -/
def Obligations.DecodeReadsSpecWords : Prop :=
  decodeTableWord 40 0x03F803F80 = some (.add 0x3F80#16 0x3F80#16) ∧
  decodeTableWord 40 0x140404000 = some (.sub 0x4040#16 0x4000#16) ∧
  decodeTableWord 40 0x240004040 = some (.mul 0x4000#16 0x4040#16) ∧
  decodeTableWord 40 0x340C04000 = some (.div 0x40C0#16 0x4000#16) ∧
  decodeTableWord 40 0x480001234 = some (.iszero 0x8000#16 0x1234#16) ∧
  decodeTableWord 40 0x57FC00000 = some (.isnan 0x7FC0#16 0x0000#16) ∧
  decodeTableWord 40 0x67F800000 = some (.isinf 0x7F80#16 0x0000#16) ∧
  decodeTableWord 40 0x73F80FFFF = some (.classify 0x3F80#16 0xFFFF#16)

/-- The model's choice (log entry 7): a number of more than 35 bits is refused by name, and no other is.
A number decodes exactly when it is below 2^35; at or above it the decoder answers widerThanRequest. The refusal is
the choice of log entry 7: the spec says that every request is one 35-bit word and nothing about a wider number.
Derived from 30_encoding.md section 1, 30_encoding.md section 3. -/
def Obligations.WiderNumbersAreRefusedByName : Prop :=
  ∀ w : Nat,
    (2 ^ 35 ≤ w → decodeNumber w = .error .widerThanRequest) ∧
    (w < 2 ^ 35 → ∃ i : Instr, decodeNumber w = .ok i ∧ (encode i).toNat = w)

/-- Every request of every operation answers a next state in which only r may differ.
For each of the eight operations (ADD, SUB, MUL, DIV, ISZERO, ISNAN, ISINF, CLASS), all operand patterns and every
state: exec answers next, with a state equal to the old one but for the result port r. So the parameters and the three
input ports are unchanged. The same holds of step at every state. No request faults or is refused.
Formalises R105. -/
def Obligations.EveryRequestReturnsResult : Prop :=
  (∀ (i : Instr) (s : State), ∃ v : Word, Sys2Proof.Machine.exec i s = .next { s with r := v }) ∧
  (∀ s : State, SafeStep s) ∧
  (∀ (i : Instr) (s : State),
    (∀ x : Fault, exec i s ≠ .fault x) ∧ (∀ x : Refusal, exec i s ≠ .refused x))

/-- The result depends on the inputs and the parameters alone, not on any earlier result.
Two states with the same parameters and the same op, a and b, whatever their r ports show from earlier requests, both
step to a next state, and the two next states show the same r.
Formalises R16. -/
def Obligations.SameInputsGiveSameResult : Prop :=
  ∀ s s' : State, s.params = s'.params → s.op = s'.op → s.a = s'.a → s.b = s'.b →
    ∃ t t' : State, step s = .next t ∧ step s' = .next t' ∧ t.r = t'.r

/-- Applying a request twice gives the same result twice and changes nothing else.
If a step answers next t, then the next step, with the inputs held, answers next t again.
Derived from 20_memory.md section 2. -/
def Obligations.RepeatedRequestChangesNothing : Prop :=
  ∀ s t : State, step s = .next t → step t = .next t

/-- After every step the output port shows the loop-free reference function of the input ports.
OutputSettled says that r is F(op, a, b) under the instance parameters, where F is written without loops: the special
cases in the order of R108, then sums, products and quotients by division and logarithm, chosen by the operation map.
From every state, settled or not, a step answers a next state that is settled and has the same parameters and inputs.
So every step keeps the invariant (the premise that it held before is not needed). F rests on the inferences the spec
marks in R66, R68 and R97 (log entry 17).
Derived from 10_state.md section 5, 70_reset_and_hazards.md section 4, 60_exceptions.md section 3. -/
def Obligations.StepSettlesOutput : Prop :=
  ∀ s : State, ∃ t : State, step s = .next t ∧ OutputSettled t ∧
    t.params = s.params ∧ t.op = s.op ∧ t.a = s.a ∧ t.b = s.b

/-- After every step the output port shows a pattern its operation can drive.
OutputLegal says: ADD and SUB show a denormal only when both operands have stored exponent 0; every MUL or DIV result
that is not a NaN has the XOR of the operand signs; DIV shows no denormal; a predicate shows 0 or 1; a class code is
at most 4. If a step from any state answers next t, t has it (the premise that it held before is not needed).
Derived from 10_state.md section 3, 42_adder.md section 2, 43_multiplier.md section 4, 44_divider.md section 4,
40_classifier.md section 2.
Its clauses are R24 and R80, R93 item 4 with R94, R104 item 3, R47 and R60; the spec marks some of them as inferences. -/
def Obligations.StepOutputIsLegal : Prop :=
  ∀ s t : State, step s = .next t → OutputLegal t

/-- The model's power-up states (log entries 2, 3 and 4) are settled and legal, the reset one with the listed defaults.
For every choice of the parameters the power-up state has r = F(op, a, b) and a legal output, and keeps those
parameters. State.reset is the power-up state with the defaults SignedInfinity, ResultSign, Significand8,
ValueCorrect, NaNFirst. The zero inputs at power-up are the choice of log entry 2, r = 0x0000 follows (log entry 3),
and the defaults are log entry 4.
Derived from 10_state.md section 5, 00_scope.md section 3. -/
def Obligations.ResetIsSettledDefaultInstance : Prop :=
  (∀ p : Params, OutputSettled (State.resetFor p) ∧ OutputLegal (State.resetFor p) ∧
    (State.resetFor p).params = p) ∧
  State.reset = State.resetFor
    ⟨.signedInfinity, .resultSign, .significand8, .valueCorrect, .naNFirst⟩

/-- Driving a request and stepping leaves the driven inputs on the ports and its result on r.
For every request i and every state s: the caller drives the fields of i on the inputs and the unit steps; the next
state shows the op, a and b of i, the same parameters, and as r the result that exec gives i at s. The same holds when
the request is placed by withFetchWord as a 40-bit table word.
Derived from 70_reset_and_hazards.md section 4. -/
def Obligations.DrivenRequestIsAnswered : Prop :=
  ∀ (i : Instr) (s : State), ∃ v : Word,
    exec i s = .next { s with r := v } ∧
    request i s = .next { params := s.params, op := i.opSel, a := i.operandA, b := i.operandB, r := v } ∧
    step (s.withFetchWord 40 (encode i).toNat) =
      .next { params := s.params, op := i.opSel, a := i.operandA, b := i.operandB, r := v }

/-- The five field predicates are what the rule says, and exactly one holds of each pattern.
For every pattern with exponent e and mantissa m: isZeroF is e=0 and m=0, isDenF is e=0 and m≠0, isNormF is 1≤e≤254,
isInfF is e=255 and m=0, isNaNF is e=255 and m≠0. Exactly one of the five is true, and the pattern is finite exactly
when it is Zero, Denormal or Normal. The same for all fields (e, m), not only those of a pattern.
Formalises R53. -/
def Obligations.FieldPredicatesPartitionPatterns : Prop :=
  (∀ v : Word,
    (isZeroF (dec v) = true ↔ IsZero v) ∧ (isDenF (dec v) = true ↔ IsDenormal v) ∧
    (isNormF (dec v) = true ↔ IsNormal v) ∧ (isInfF (dec v) = true ↔ IsInf v) ∧
    (isNaNF (dec v) = true ↔ IsNaN v) ∧
    (IsFinite v ↔ IsZero v ∨ IsDenormal v ∨ IsNormal v)) ∧
  (∀ f : Fields,
    [isZeroF f, isDenF f, isNormF f, isInfF f, isNaNF f].count true = 1)

/-- Encoding the decomposed fields of any pattern gives the pattern back.
enc(dec(v)) = v for all 65536 patterns v (the spec derives it from R52 and R54).
Derived from 40_classifier.md section 1.
R56 marks it as an inference from R52 and R54. -/
def Obligations.RecodeRestoresPattern : Prop :=
  ∀ v : Word, recode v = v

/-- The special result patterns are the ones the rule names.
CANON_NAN is 0x7FC0, CANON_ZERO is 0x0000; for each sign s, signedZero(s) = enc(s, 0, 0) = s << 15 and signedInf(s) =
enc(s, 255, 0) = (s << 15) | 0x7F80.
Formalises R55. -/
def Obligations.SpecialPatternsAsNamed : Prop :=
  canonNaN = 0x7FC0#16 ∧ canonZero = 0x0000#16 ∧
  ∀ s : BitVec 1,
    signedZero s = enc s.toNat 0 0 ∧ signedZero s = s.setWidth 16 <<< 15 ∧
    signedInf s = enc s.toNat 255 0 ∧ signedInf s = (s.setWidth 16 <<< 15) ||| 0x7F80#16

/-- ISZERO drives 1 for the two zeros and 0 otherwise, and changes nothing else.
For all a and b and every state, ISZERO answers next with r = 1 when e = 0 and m = 0 (equivalently when a & 0x7FFF =
0), else r = 0, b ignored, everything but r unchanged. Its op is 100.
Formalises R57. -/
def Obligations.IsZeroDrivesOneForZeros : Prop :=
  ∀ (a b : Word) (s : State),
    Sys2Proof.Machine.exec (.iszero a b) s = .next { s with r := if IsZero a then 0x0001#16 else 0x0000#16 } ∧
    (IsZero a ↔ a &&& 0x7FFF#16 = 0#16) ∧
    (encode (.iszero a b)).extractLsb' 32 3 = 0b100#3

/-- ISNAN drives 1 for the NaNs and 0 otherwise, and changes nothing else.
For all a and b and every state, ISNAN answers next with r = 1 when e = 255 and m ≠ 0, else r = 0, b and the sign
ignored, everything but r unchanged. Its op is 101.
Formalises R58. -/
def Obligations.IsNaNDrivesOneForNaNs : Prop :=
  ∀ (a b : Word) (s : State),
    Sys2Proof.Machine.exec (.isnan a b) s = .next { s with r := if IsNaN a then 0x0001#16 else 0x0000#16 } ∧
    (encode (.isnan a b)).extractLsb' 32 3 = 0b101#3

/-- ISINF drives 1 for the two infinities and 0 otherwise, and changes nothing else.
For all a and b and every state, ISINF answers next with r = 1 when e = 255 and m = 0, else r = 0, b and the sign
ignored, everything but r unchanged. Its op is 110.
Formalises R59. -/
def Obligations.IsInfDrivesOneForInfinities : Prop :=
  ∀ (a b : Word) (s : State),
    Sys2Proof.Machine.exec (.isinf a b) s = .next { s with r := if IsInf a then 0x0001#16 else 0x0000#16 } ∧
    (encode (.isinf a b)).extractLsb' 32 3 = 0b110#3

/-- CLASS drives the code of the class of a, and changes nothing else.
For all a and b and every state, CLASS answers next with r = 0 for Zero, 1 for Infinity, 2 for NaN, 3 for Normal, 4
for Denormal (by the tests in that order), b and the sign ignored, everything but r unchanged. Codes 5, 6 and 7 are
never produced. Its op is 111.
Formalises R60. -/
def Obligations.ClassDrivesClassCode : Prop :=
  ∀ (a b : Word) (s : State),
    Sys2Proof.Machine.exec (.classify a b) s = .next { s with r := classReference a } ∧
    (encode (.classify a b)).extractLsb' 32 3 = 0b111#3

/-- ISZERO, ISINF and ISNAN give 1 exactly when CLASS gives 0, 1 and 2.
For every a, every state and any b fields of the four requests: all four answer next, changing only r; the ISZERO
result is 1 exactly when the CLASS result is 0, the ISINF result is 1 exactly when it is 1, the ISNAN result is 1
exactly when it is 2 (the spec derives it from R57 to R60 and R53).
Derived from 40_classifier.md section 2.
R61 marks it as an inference. -/
def Obligations.PredicatesAgreeWithClass : Prop :=
  ∀ (a b₁ b₂ b₃ b₄ : Word) (s : State), ∃ z n i c : Word,
    exec (.iszero a b₁) s = .next { s with r := z } ∧ exec (.isnan a b₂) s = .next { s with r := n } ∧
    exec (.isinf a b₃) s = .next { s with r := i } ∧ exec (.classify a b₄) s = .next { s with r := c } ∧
    (z = 1#16 ↔ c = 0#16) ∧ (i = 1#16 ↔ c = 1#16) ∧ (n = 1#16 ↔ c = 2#16)

/-- For ISZERO, ISNAN, ISINF and CLASS every value on port b gives the same result.
At every state whose op is 100, 101, 110 or 111, replacing port b by any pattern gives a step with the same r, and
both steps answer next and change only r.
Formalises R46. -/
def Obligations.UnaryOperationsIgnoreB : Prop :=
  ∀ (s : State) (b' : Word), 4 ≤ s.op.toNat →
    ∃ v : Word, step s = .next { s with r := v } ∧
      step { s with b := b' } = .next { s with b := b', r := v }

/-- clz32 counts the leading zeros of a 32-bit value, 32 for zero, and fits the count port.
clz32(0) = 32. For x ≠ 0 the count is at most 31 and 2^(31 - clz32 x) ≤ x < 2^(32 - clz32 x), so the first set bit
from the top is bit 31 - clz32 x. The 6-bit port of the normalizer carries exactly this count.
Formalises R62. -/
def Obligations.LeadingZeroCountLocatesTopBit : Prop :=
  clz32 0#32 = 32 ∧
  (∀ x : BitVec 32, x ≠ 0#32 →
    clz32 x ≤ 31 ∧ 2 ^ (31 - clz32 x) ≤ x.toNat ∧ x.toNat < 2 ^ (32 - clz32 x)) ∧
  (∀ x : BitVec 32, (normalizer x).toNat = clz32 x)

/-- normLeft8 shifts a nonzero 8-bit value left until bit 7 is set and returns the count.
For 1 ≤ x ≤ 0xFF the count is clz32(x) - 24, at most 7; the value is x * 2^count, between 0x80 and 0xFF.
Formalises R63. -/
def Obligations.NormLeft8SetsBit7 : Prop :=
  ∀ x : Nat, 1 ≤ x → x ≤ 0xFF →
    (normLeft8 x).count + 24 = clz32 (BitVec.ofNat 32 x) ∧ (normLeft8 x).count ≤ 7 ∧
    (normLeft8 x).value = x * 2 ^ (normLeft8 x).count ∧
    0x80 ≤ (normLeft8 x).value ∧ (normLeft8 x).value ≤ 0xFF

/-- normLeft16 shifts a nonzero 16-bit value left until bit 15 is set and returns the count.
For 1 ≤ q ≤ 0xFFFF the count is clz32(q) - 16, at most 15; the value is q * 2^count, between 0x8000 and 0xFFFF; and
the count is at most 8 when q ≥ 0x80, as for every quotient of the divider.
Derived from 41_normalizer.md section 2.
The quotient range is an inference the spec marks in R64. -/
def Obligations.NormLeft16SetsBit15 : Prop :=
  ∀ q : Nat, 1 ≤ q → q ≤ 0xFFFF →
    (normLeft16 q).count + 16 = clz32 (BitVec.ofNat 32 q) ∧ (normLeft16 q).count ≤ 15 ∧
    (normLeft16 q).value = q * 2 ^ (normLeft16 q).count ∧
    0x8000 ≤ (normLeft16 q).value ∧ (normLeft16 q).value ≤ 0xFFFF ∧
    (0x80 ≤ q → (normLeft16 q).count ≤ 8)

/-- normRight9 and normProd bring a sum and a product back into 8 bits by dropping low bits.
For x ≤ 0x1FE, normRight9 gives (1, x/2) when x ≥ 0x100 and (0, x) otherwise, at most 0xFF. For 0x4000 ≤ p ≤ 0xFE01,
normProd gives (1, p/256) when p ≥ 0x8000 and (0, p/128) otherwise, between 0x80 and 0xFF. The divisions round down:
nothing is rounded up and no bit shifted out is kept.
Derived from 41_normalizer.md section 2.
The bound of one shift and the shifts by 7 and 8 are inferences the spec marks in R65 and R66 (log entry 17). -/
def Obligations.RightShiftsTruncateToEightBits : Prop :=
  (∀ x : Nat, x ≤ 0x1FE →
    normRight9 x = (if 0x100 ≤ x then ⟨1, x / 2⟩ else ⟨0, x⟩) ∧ (normRight9 x).value ≤ 0xFF) ∧
  (∀ p : Nat, 0x4000 ≤ p → p ≤ 0xFE01 →
    normProd p = (if 0x8000 ≤ p then ⟨1, p / 256⟩ else ⟨0, p / 128⟩) ∧
    0x80 ≤ (normProd p).value ∧ (normProd p).value ≤ 0xFF)

/-- The shift loops of the adder and the divider agree with the leading-zero counts.
For 1 ≤ x ≤ 0xFF and an exponent E ≥ 1, the cancellation loop flushes exactly when E ≤ k and otherwise ends with x *
2^k and E - k, where (k, x * 2^k) = normLeft8(x). For 0x80 ≤ q ≤ 0xFFFF and any exponent, the quotient loop ends with
normLeft16(q) and the exponent less its count.
Derived from 41_normalizer.md section 2, 44_divider.md section 2.
The agreement is an inference the spec marks in R68 (log entry 17). -/
def Obligations.ShiftLoopsAgreeWithCounts : Prop :=
  (∀ (x : Nat) (E : Int), 1 ≤ x → x ≤ 0xFF → 1 ≤ E →
    cancelLoop 7 x E =
      if E ≤ ((normLeft8 x).count : Int) then none
      else some ((normLeft8 x).value, E - ((normLeft8 x).count : Int))) ∧
  (∀ (q : Nat) (E : Int), 0x80 ≤ q → q ≤ 0xFFFF →
    quotientLoop 8 q E = ((normLeft16 q).value, E - ((normLeft16 q).count : Int)))

/-- The intermediates of the datapaths stay in the ranges the spec lists.
The ranges of the table of R69. All: s, e, m and the significand. ADD: the exponent difference in -254..254; of
aligned operands the significands and their difference at most 0xFF, the sum at most 0x1FE, the exponent in 0..254
before, in 0..255 after the carry, and in 0..255 after a cancellation that does not flush. MUL: the adjustment in
-14..0, the significands in 0x80..0xFF, the product in 0x4000..0xFE01, the exponent in -139..381 before and -139..382
after the carry, the denormal shift in 1..7. DIV: the dividend and every partial remainder at most 0x7F8000, every
shifted divisor in 1..0x7F8000, the quotient in 0x80..0xFFFF (0x4040..0xFF00 for two normals), the exponent in
-136..382 before and after renormalisation. A leading-zero count is at most 32. For finite nonzero operands, under
every parameter value.
Derived from 41_normalizer.md section 3.
The ranges are an inference the spec marks in R69. -/
def Obligations.IntermediatesStayInRange : Prop :=
  (∀ v : Word, (dec v).s.toNat ≤ 1 ∧ (dec v).e.toNat ≤ 255 ∧ (dec v).m.toNat ≤ 127 ∧ significand (dec v) ≤ 0xFF) ∧
  (∀ a b : Word, IsFiniteNonzero a → IsFiniteNonzero b →
    (-254 : Int) ≤ ((dec a).e.toNat : Int) - (dec b).e.toNat ∧ ((dec a).e.toNat : Int) - (dec b).e.toNat ≤ 254) ∧
  (∀ (a b : Word) (x y re : Nat), IsFiniteNonzero a → IsFiniteNonzero b → align a b = .aligned x y re →
    x ≤ 0xFF ∧ y ≤ 0xFF ∧ x + y ≤ 0x1FE ∧ (if y ≤ x then x - y else y - x) ≤ 0xFF ∧
    re ≤ 254 ∧ re + (normRight9 (x + y)).count ≤ 255 ∧
    (∀ (d : Nat) (re' : Int), cancelLoop 7 (if y ≤ x then x - y else y - x) (re : Int) = some (d, re') →
      0 ≤ re' ∧ re' ≤ 255)) ∧
  (∀ a b : Word, IsFiniteNonzero a → IsFiniteNonzero b →
    let pa := mulPrepare a
    let pb := mulPrepare b
    let re := mulExponentSum pa pb
    let re' := re + ((normProd (pa.sig * pb.sig)).count : Int)
    0x80 ≤ pa.sig ∧ pa.sig ≤ 0xFF ∧ pa.shift ≤ 7 ∧ 0x80 ≤ pb.sig ∧ pb.sig ≤ 0xFF ∧ pb.shift ≤ 7 ∧
    (-14 : Int) ≤ -(pa.shift : Int) - pb.shift ∧ -(pa.shift : Int) - pb.shift ≤ 0 ∧
    0x4000 ≤ pa.sig * pb.sig ∧ pa.sig * pb.sig ≤ 0xFE01 ∧
    (-139 : Int) ≤ re ∧ re ≤ 381 ∧ (-139 : Int) ≤ re' ∧ re' ≤ 382 ∧
    (-6 ≤ re' → re' ≤ 0 → 1 ≤ 1 - re' ∧ 1 - re' ≤ 7)) ∧
  (∀ x y : Nat, 1 ≤ x → x ≤ 0xFF → 1 ≤ y → y ≤ 0xFF →
    divPartial x y 16 = restoringDivide x y ∧
    (∀ i : Nat, i ≤ 16 → (divPartial x y i).rem ≤ 0x7F8000) ∧
    (∀ i : Nat, i ≤ 15 → 1 ≤ y <<< (15 - i) ∧ y <<< (15 - i) ≤ 0x7F8000) ∧
    0x80 ≤ (restoringDivide x y).q ∧ (restoringDivide x y).q ≤ 0xFFFF ∧
    (0x80 ≤ x → 0x80 ≤ y → 0x4040 ≤ (restoringDivide x y).q ∧ (restoringDivide x y).q ≤ 0xFF00)) ∧
  (∀ (p : Params) (a b : Word), IsFiniteNonzero a → IsFiniteNonzero b →
    let q := (restoringDivide (significand (dec a)) (significand (dec b))).q
    let re := divExponent p (dec a).e (dec b).e
    (-136 : Int) ≤ re ∧ re ≤ 382 ∧ (-136 : Int) ≤ (quotientLoop 8 q re).2 ∧ (quotientLoop 8 q re).2 ≤ 382) ∧
  (∀ x : BitVec 32, clz32 x ≤ 32)

/-- ADD takes NaN and infinity operands first, the first NaN from the left, nothing but r changing.
At every state: a NaN gives a; a infinite and b NaN gives b; two infinities of the same sign give a, of opposite signs
0x7FC0; a infinite and b finite gives a; a finite and b infinite or NaN gives b. Every pattern passed through is
unchanged. Each answers next and changes only r.
Formalises R70. -/
def Obligations.AddNaNAndInfinityOperands : Prop :=
  ∀ (a b : Word) (s : State),
    (IsNaN a → Sys2Proof.Machine.exec (.add a b) s = .next { s with r := a }) ∧
    (IsInf a → IsNaN b → Sys2Proof.Machine.exec (.add a b) s = .next { s with r := b }) ∧
    (IsInf a → IsInf b → signOf a = signOf b → Sys2Proof.Machine.exec (.add a b) s = .next { s with r := a }) ∧
    (IsInf a → IsInf b → signOf a ≠ signOf b → Sys2Proof.Machine.exec (.add a b) s = .next { s with r := 0x7FC0#16 }) ∧
    (IsInf a → IsFinite b → Sys2Proof.Machine.exec (.add a b) s = .next { s with r := a }) ∧
    (IsFinite a → ¬ IsFinite b → Sys2Proof.Machine.exec (.add a b) s = .next { s with r := b })

/-- ADD of a zero gives the other operand unchanged, a tested before b.
At every state: if a is +0 or -0 the result is b, whatever b is; if a is finite and not a zero and b is a zero the
result is a. Each answers next and changes only r.
Formalises R71. -/
def Obligations.AddZeroOperands : Prop :=
  ∀ (a b : Word) (s : State),
    (IsZero a → Sys2Proof.Machine.exec (.add a b) s = .next { s with r := b }) ∧
    (IsFiniteNonzero a → IsZero b → Sys2Proof.Machine.exec (.add a b) s = .next { s with r := a })

/-- ADD returns the larger-exponent operand itself when the stored exponents differ by more than 8.
For finite nonzero operands at every state, whatever the signs: if the stored exponent of a exceeds that of b by more
than 8 the result is a, and the other way round it is b. Each answers next and changes only r.
Derived from 42_adder.md section 2.
It states the early exit of R73 and not the alignment. -/
def Obligations.AddEarlyExit : Prop :=
  ∀ (a b : Word) (s : State), IsFiniteNonzero a → IsFiniteNonzero b →
    (expOf b + 8 < expOf a → Sys2Proof.Machine.exec (.add a b) s = .next { s with r := a }) ∧
    (expOf a + 8 < expOf b → Sys2Proof.Machine.exec (.add a b) s = .next { s with r := b })

/-- ADD of two like-signed operands packs the truncated sum, or the overflow result of the instance.
For finite nonzero operands of the same sign whose stored exponents differ by at most 8, exec answers next, changing
only r, with sumPattern: with e the larger exponent and x the sum of the significands aligned to it, x packed at e
when x < 256, x/2 packed at e+1 when x ≥ 256 and e+1 < 255, and otherwise the infinity of that sign under
SignedInfinity and 0x7FC0 under CanonicalNaN.
Formalises R74, R75. -/
def Obligations.AddSameSignsSum : Prop :=
  ∀ (a b : Word) (s : State), IsFiniteNonzero a → IsFiniteNonzero b →
    expOf a ≤ expOf b + 8 → expOf b ≤ expOf a + 8 → signOf a = signOf b →
    Sys2Proof.Machine.exec (.add a b) s = .next { s with r := sumPattern s.params a b }

/-- ADD of two opposite-signed operands packs the renormalised difference, flushes it, or gives canonical zero.
For finite nonzero operands of opposite signs whose stored exponents differ by at most 8, exec answers next, changing
only r, with differencePattern: with e the larger exponent and x, y the significands aligned to it, 0x0000 when x = y.
Otherwise the sign is that of the larger aligned significand, and with k the places |x - y| is short of bit 7: if e ≤
k the zero of that sign under ResultSign and 0x0000 under Positive; else |x - y| shifted left by k, packed at e - k.
Formalises R76, R77, R78, R79. -/
def Obligations.AddOppositeSignsDifference : Prop :=
  ∀ (a b : Word) (s : State), IsFiniteNonzero a → IsFiniteNonzero b →
    expOf a ≤ expOf b + 8 → expOf b ≤ expOf a + 8 → signOf a ≠ signOf b →
    Sys2Proof.Machine.exec (.add a b) s = .next { s with r := differencePattern s.params a b }

/-- ADD of two like-signed denormals keeps exponent 0 and drops bit 7 of the sum.
For denormals a and b of the same sign, at every state, the result has that sign, exponent 0 and the low 7 bits of the
sum of the mantissas (so ADD(0x0040, 0x0040) is 0x0000); exec answers next and changes only r. The spec marks this as
its inference from R73, R74, R78 and R54.
Derived from 42_adder.md section 2, 42_adder.md section 3.
R80 marks it as an inference. -/
def Obligations.AddDenormalSumsKeepExponentZero : Prop :=
  ∀ (a b : Word) (s : State), IsDenormal a → IsDenormal b → signOf a = signOf b →
    Sys2Proof.Machine.exec (.add a b) s = .next { s with r := packed (signOf a) 0 ((fracOf a + fracOf b) % 128) }

/-- SUB a, b is ADD of a and b with its sign bit flipped, nothing but r changing.
For all a and b and every state, SUB a, b answers next, changing only r, with the result that ADD a, (b ^ 0x8000)
gives; NaN and infinity operands included. Its op is 001.
Formalises R82. -/
def Obligations.SubAddsSignFlippedOperand : Prop :=
  ∀ (a b : Word) (s : State),
    (∃ v : Word, Sys2Proof.Machine.exec (.sub a b) s = .next { s with r := v } ∧
      Sys2Proof.Machine.exec (.add a (b ^^^ 0x8000#16)) s = .next { s with r := v }) ∧
    (encode (.sub a b)).extractLsb' 32 3 = 0b001#3

/-- The pseudo-operations NEG and COPY assemble to one request and are exact for all patterns.
For every pattern x, at every state: NEG x assembles to SUB 0x0000, x, which gives x with its sign bit flipped; COPY x
assembles to ADD 0x0000, x, which gives x. The spec derives the exactness from R70, R71 and R45.
Derived from 30_encoding.md section 4.
R51 marks it as an inference. -/
def Obligations.NegAndCopyAreExact : Prop :=
  ∀ (x : Word) (held : List Word) (s : State),
    assemble held (.neg (.pattern x)) = .ok (.sub 0x0000#16 x) ∧
    exec (.sub 0x0000#16 x) s = .next { s with r := x ^^^ 0x8000#16 } ∧
    assemble held (.copy (.pattern x)) = .ok (.add 0x0000#16 x) ∧
    exec (.add 0x0000#16 x) s = .next { s with r := x }

/-- ADD commutes on finite operands, but for the pair +0, -0, where both results are zeros.
For finite a and b that are not the pair 0x0000, 0x8000 in either order, ADD a, b and ADD b, a answer the same next
state, changing only r. For that pair both results are zeros. Under every parameter value.
Derived from 42_adder.md section 4.
Item 1 of R83, which the spec marks as an inference. -/
def Obligations.AddCommutesOnFinite : Prop :=
  ∀ (a b : Word) (s : State), IsFinite a → IsFinite b → ∃ v w : Word,
    exec (.add a b) s = .next { s with r := v } ∧ exec (.add b a) s = .next { s with r := w } ∧
    ((a = 0x0000#16 ∧ b = 0x8000#16) ∨ (a = 0x8000#16 ∧ b = 0x0000#16) → IsZero v ∧ IsZero w ∧ v ≠ w) ∧
    (¬ ((a = 0x0000#16 ∧ b = 0x8000#16) ∨ (a = 0x8000#16 ∧ b = 0x0000#16)) → v = w)

/-- Adding the sign-flipped operand gives zero for finite operands, and the NaN or canonical NaN otherwise.
At every state, ADD x, (x ^ 0x8000) gives 0x0000 for finite nonzero x, the second operand for a zero x, 0x7FC0 for an
infinite x, and x for a NaN x; each answers next and changes only r.
Derived from 42_adder.md section 4.
Item 2 of R83, which the spec marks as an inference. -/
def Obligations.AddNegationGivesZero : Prop :=
  ∀ (x : Word) (s : State),
    (IsFiniteNonzero x → exec (.add x (x ^^^ 0x8000#16)) s = .next { s with r := 0x0000#16 }) ∧
    (IsZero x → exec (.add x (x ^^^ 0x8000#16)) s = .next { s with r := x ^^^ 0x8000#16 }) ∧
    (IsInf x → exec (.add x (x ^^^ 0x8000#16)) s = .next { s with r := 0x7FC0#16 }) ∧
    (IsNaN x → exec (.add x (x ^^^ 0x8000#16)) s = .next { s with r := x })

/-- ADD gives a NaN for a NaN operand, and a NaN or infinity only from such operands or from overflow.
For all a, b and every state ADD answers next, changing only r. If a or b is a NaN the result is one. A NaN result
needs a NaN operand, opposite infinities, or an overflow under CanonicalNaN; an infinite result needs an infinite
operand or an overflow under SignedInfinity; an overflow needs finite operands of the same sign with larger exponent
254. So a packed result never has exponent 255.
Derived from 42_adder.md section 4.
Items 3 to 5 of R83, which the spec marks as inferences. -/
def Obligations.AddSpecialResultsHaveCauses : Prop :=
  ∀ (a b : Word) (s : State), ∃ v : Word,
    exec (.add a b) s = .next { s with r := v } ∧
    (IsNaN a ∨ IsNaN b → IsNaN v) ∧
    (IsNaN v → IsNaN a ∨ IsNaN b ∨ (IsInf a ∧ IsInf b ∧ signOf a ≠ signOf b) ∨
      (s.params.addOverflowResult = .canonicalNaN ∧ IsFinite a ∧ IsFinite b ∧ signOf a = signOf b ∧
        max (expOf a) (expOf b) = 254)) ∧
    (IsInf v → IsInf a ∨ IsInf b ∨
      (s.params.addOverflowResult = .signedInfinity ∧ IsFinite a ∧ IsFinite b ∧ signOf a = signOf b ∧
        max (expOf a) (expOf b) = 254))

/-- MUL takes NaN, infinity and zero operands in the order of the rule, with the XOR sign.
At every state: a NaN gives a; a not NaN and b NaN gives b (zero times NaN included); infinity times zero, in either
order, gives 0x7FC0; infinity times a nonzero, in either order, the infinity with the XOR sign; zero times a finite,
in either order, the zero with the XOR sign. Each answers next and changes only r.
Formalises R85. -/
def Obligations.MulSpecialCases : Prop :=
  ∀ (a b : Word) (s : State),
    (IsNaN a → Sys2Proof.Machine.exec (.mul a b) s = .next { s with r := a }) ∧
    (¬ IsNaN a → IsNaN b → Sys2Proof.Machine.exec (.mul a b) s = .next { s with r := b }) ∧
    ((IsInf a ∧ IsZero b) ∨ (IsZero a ∧ IsInf b) → Sys2Proof.Machine.exec (.mul a b) s = .next { s with r := 0x7FC0#16 }) ∧
    (IsInf a → ¬ IsNaN b → ¬ IsZero b → Sys2Proof.Machine.exec (.mul a b) s = .next { s with r := infOf (signXor a b) }) ∧
    (¬ IsNaN a → ¬ IsZero a → IsInf b → Sys2Proof.Machine.exec (.mul a b) s = .next { s with r := infOf (signXor a b) }) ∧
    (IsFinite a → IsFinite b → IsZero a ∨ IsZero b → Sys2Proof.Machine.exec (.mul a b) s = .next { s with r := zeroOf (signXor a b) })

/-- The final exponent of a product decides infinity, flush or a denormal with the mantissa of the instance.
For every sign, final exponent re and 8-bit significand sig: re ≥ 255 gives the infinity of the sign, re < -6 its
zero, and -6 ≤ re ≤ 0 the pattern with exponent 0 and mantissa sig (Significand8) or the low 7 bits of sig
(Fraction7), shifted right by 1 - re.
Formalises R88, R89, R90. -/
def Obligations.MulExponentDecidesResult : Prop :=
  ∀ (p : Params) (rs : BitVec 1) (re : Int) (sig : Nat), sig ≤ 0xFF →
    (255 ≤ re → mulPack p rs re sig = infOf rs.toNat) ∧
    (re < -6 → mulPack p rs re sig = zeroOf rs.toNat) ∧
    (-6 ≤ re → re ≤ 0 → p.mulSubnormalSource = .significand8 →
      mulPack p rs re sig = packed rs.toNat 0 (sig / 2 ^ (1 - re).toNat)) ∧
    (-6 ≤ re → re ≤ 0 → p.mulSubnormalSource = .fraction7 →
      mulPack p rs re sig = packed rs.toNat 0 (sig % 128 / 2 ^ (1 - re).toNat))

/-- MUL of finite nonzero operands packs the truncated product, saturates, flushes, or gives a denormal.
For finite nonzero operands at every state exec answers next, changing only r, with productPattern: n is the product
of the normalised significands, re the exponent sum less 127 with the adjustments, plus 1 when n ≥ 0x8000, sig the top
8 bits of n. The result has the XOR sign: infinity when re ≥ 255, zero when re < -6, for -6 ≤ re ≤ 0 exponent 0 with
sig (Significand8) or its low 7 bits (Fraction7) shifted right by 1 - re, else sig packed at re. The shifts by 7 and 8
are the inference marked in R66 (log entry 17).
Derived from 43_multiplier.md section 2.
The steps of R86 to R91. -/
def Obligations.MulFiniteProduct : Prop :=
  ∀ (a b : Word) (s : State), IsFiniteNonzero a → IsFiniteNonzero b →
    Sys2Proof.Machine.exec (.mul a b) s = .next { s with r := productPattern s.params a b }

/-- MUL commutes on operands that are not NaN, under every parameter value.
For a and b that are not NaNs, at every state, MUL a, b and MUL b, a answer the same next state, changing only r.
Derived from 43_multiplier.md section 4.
Item 1 of R93, which the spec marks as an inference. -/
def Obligations.MulCommutes : Prop :=
  ∀ (a b : Word) (s : State), ¬ IsNaN a → ¬ IsNaN b →
    ∃ v : Word, exec (.mul a b) s = .next { s with r := v } ∧ exec (.mul b a) s = .next { s with r := v }

/-- MUL x, 1.0 is x for every pattern under Significand8; under Fraction7 it fails exactly for the denormals.
At every state, under Significand8 MUL x, 0x3F80 gives x for all 65536 patterns. Under Fraction7 it gives x for every
x that is not a denormal, and a pattern other than x for every denormal. Each answers next and changes only r.
Derived from 43_multiplier.md section 4.
Item 2 of R93, which the spec marks as an inference. -/
def Obligations.MulByOneIsIdentity : Prop :=
  ∀ (x : Word) (s : State),
    (s.params.mulSubnormalSource = .significand8 → exec (.mul x 0x3F80#16) s = .next { s with r := x }) ∧
    (s.params.mulSubnormalSource = .fraction7 →
      ∃ v : Word, exec (.mul x 0x3F80#16) s = .next { s with r := v } ∧ (v = x ↔ ¬ IsDenormal x))

/-- Under Significand8, MUL is the exact product rounded toward zero to the bfloat16 grid, denormals included.
For finite operands, zeros and denormals included, under Significand8, with magnitudes in units of 2^-133: MUL answers
next, changing only r; r has the XOR sign; r is infinite when the exact product is at least 2^128; otherwise r is
finite, its magnitude is at most the exact product, and the exact product is less than one unit in the last place of r
above it. It rests on the informative values of R22 (log entry 18).
Derived from 43_multiplier.md section 2, 41_normalizer.md section 2, 10_state.md section 3.
R90: "Under Significand8 the result is the true value truncated to the denormal grid"; R67: truncation is rounding
toward zero magnitude. -/
def Obligations.MulIsTruncatedExactProduct : Prop :=
  ∀ (a b : Word) (s : State), IsFinite a → IsFinite b → s.params.mulSubnormalSource = .significand8 →
    ∃ v : Word, exec (.mul a b) s = .next { s with r := v } ∧ signOf v = signXor a b ∧
      (2 ^ 128 * 2 ^ 133 * 2 ^ 133 ≤ scaledOf a * scaledOf b → IsInf v) ∧
      (scaledOf a * scaledOf b < 2 ^ 128 * 2 ^ 133 * 2 ^ 133 →
        IsFinite v ∧ scaledOf v * 2 ^ 133 ≤ scaledOf a * scaledOf b ∧
        scaledOf a * scaledOf b < (scaledOf v + ulpOf v) * 2 ^ 133)

/-- DIV takes NaN, infinity and zero operands in the order the instance fixes, with the XOR sign.
Where no operand is a NaN, under both orders: infinity by infinity and zero by zero give 0x7FC0; infinity by finite
the signed infinity; finite by infinity the signed zero; nonzero finite by zero the signed infinity; zero by nonzero
finite the signed zero. Under NaNFirst a NaN a gives a, else a NaN b gives b. Under DivisorFirst a NaN b gives b
whatever a is, and a NaN a over infinity gives the signed zero, over zero the signed infinity, over a nonzero finite a
itself. Each answers next and changes only r.
Formalises R95. -/
def Obligations.DivSpecialCases : Prop :=
  ∀ (a b : Word) (s : State),
    (¬ IsNaN a → ¬ IsNaN b →
      (IsInf a → IsInf b → Sys2Proof.Machine.exec (.div a b) s = .next { s with r := 0x7FC0#16 }) ∧
      (IsZero a → IsZero b → Sys2Proof.Machine.exec (.div a b) s = .next { s with r := 0x7FC0#16 }) ∧
      (IsInf a → IsFinite b → Sys2Proof.Machine.exec (.div a b) s = .next { s with r := infOf (signXor a b) }) ∧
      (IsFinite a → IsInf b → Sys2Proof.Machine.exec (.div a b) s = .next { s with r := zeroOf (signXor a b) }) ∧
      (IsFiniteNonzero a → IsZero b → Sys2Proof.Machine.exec (.div a b) s = .next { s with r := infOf (signXor a b) }) ∧
      (IsZero a → IsFiniteNonzero b → Sys2Proof.Machine.exec (.div a b) s = .next { s with r := zeroOf (signXor a b) })) ∧
    (s.params.divSpecialOrder = .naNFirst →
      (IsNaN a → Sys2Proof.Machine.exec (.div a b) s = .next { s with r := a }) ∧
      (¬ IsNaN a → IsNaN b → Sys2Proof.Machine.exec (.div a b) s = .next { s with r := b })) ∧
    (s.params.divSpecialOrder = .divisorFirst →
      (IsNaN b → Sys2Proof.Machine.exec (.div a b) s = .next { s with r := b }) ∧
      (IsNaN a → IsInf b → Sys2Proof.Machine.exec (.div a b) s = .next { s with r := zeroOf (signXor a b) }) ∧
      (IsNaN a → IsZero b → Sys2Proof.Machine.exec (.div a b) s = .next { s with r := infOf (signXor a b) }) ∧
      (IsNaN a → IsFiniteNonzero b → Sys2Proof.Machine.exec (.div a b) s = .next { s with r := a }))

/-- The 16-iteration restoring division gives the floor of the quotient, saturating at 0xFFFF.
For significands x and y in 1..0xFF, the quotient of the loop is the smaller of floor(x * 2^15 / y) and 0xFFFF. It
saturates exactly when x ≥ 2y. When it does not, quotient and remainder satisfy x * 2^15 = q * y + rem with rem < y.
The spec derives the closed form by enumeration.
Derived from 44_divider.md section 2.
The closed form is an inference the spec marks in R97 (log entry 17). -/
def Obligations.RestoringDivisionIsSaturatingFloor : Prop :=
  ∀ x y : Nat, 1 ≤ x → x ≤ 0xFF → 1 ≤ y → y ≤ 0xFF →
    (restoringDivide x y).q = min (x * 2 ^ 15 / y) 0xFFFF ∧
    (0xFFFF < x * 2 ^ 15 / y ↔ 2 * y ≤ x) ∧
    (x < 2 * y → x * 2 ^ 15 = (restoringDivide x y).q * y + (restoringDivide x y).rem ∧
      (restoringDivide x y).rem < y)

/-- The final exponent of a quotient decides infinity or flush to zero.
For every sign and final exponent re, re ≥ 255 gives the infinity of the sign and re ≤ 0 its zero, whatever the
quotient.
Formalises R100, R101. -/
def Obligations.DivExponentDecidesResult : Prop :=
  ∀ (rs : BitVec 1) (re : Int) (q8 : Nat),
    (255 ≤ re → divPack rs re q8 = infOf rs.toNat) ∧
    (re ≤ 0 → divPack rs re q8 = zeroOf rs.toNat)

/-- DIV of finite nonzero operands packs the truncated quotient, saturates, or flushes to zero.
For finite nonzero operands at every state exec answers next, changing only r, with quotientPattern: q is the smaller
of floor(siga * 2^15 / sigb) and 0xFFFF, k the places it is short of bit 15, re the exponent difference plus 127,
corrected for denormals as the instance says, less k. The result has the XOR sign: infinity when re ≥ 255, zero when
re ≤ 0, else the top 8 bits of the shifted q packed at re. The closed form of q is the inference marked in R97 (log
entry 17).
Derived from 44_divider.md section 2.
The steps of R96 to R102. -/
def Obligations.DivFiniteQuotient : Prop :=
  ∀ (a b : Word) (s : State), IsFiniteNonzero a → IsFiniteNonzero b →
    Sys2Proof.Machine.exec (.div a b) s = .next { s with r := quotientPattern s.params a b }

/-- DIV x, x is exactly 0x3F80 for every finite nonzero x, under every parameter value.
For every finite nonzero pattern x, denormals included, and every state, DIV x, x answers next with r = 0x3F80,
changing only r.
Derived from 44_divider.md section 4.
Item 1 of R104, which the spec marks as an inference. -/
def Obligations.DivBySelfIsOne : Prop :=
  ∀ (x : Word) (s : State), IsFiniteNonzero x → exec (.div x x) s = .next { s with r := 0x3F80#16 }

/-- DIV x, 1.0 is x for every normal x and the zero of its sign for every denormal x.
At every state, DIV x, 0x3F80 gives x when x is normal, and the zero with the sign of x when x is a denormal; each
answers next and changes only r, under every parameter value.
Derived from 44_divider.md section 4.
Item 4 of R104, which the spec marks as an inference. -/
def Obligations.DivByOneIsIdentityOnNormals : Prop :=
  ∀ (x : Word) (s : State),
    (IsNormal x → exec (.div x 0x3F80#16) s = .next { s with r := x }) ∧
    (IsDenormal x → exec (.div x 0x3F80#16) s = .next { s with r := zeroOf (signOf x) })

/-- Under NaNFirst DIV gives a NaN whenever an operand is one; under DivisorFirst it does not.
Under NaNFirst, if a or b is a NaN then DIV answers next with a NaN as r. Under DivisorFirst, a NaN divided by an
infinity or by a zero gives a result that is no NaN. A NaN result without a NaN operand comes only from infinity by
infinity or zero by zero, under both orders.
Derived from 44_divider.md section 4.
Item 5 of R104, which the spec marks as an inference. -/
def Obligations.DivNaNClosureDependsOnOrder : Prop :=
  ∀ (a b : Word) (s : State), ∃ v : Word,
    exec (.div a b) s = .next { s with r := v } ∧
    (s.params.divSpecialOrder = .naNFirst → IsNaN a ∨ IsNaN b → IsNaN v) ∧
    (s.params.divSpecialOrder = .divisorFirst → IsNaN a → IsInf b ∨ IsZero b → ¬ IsNaN v) ∧
    (¬ IsNaN a → ¬ IsNaN b → (IsNaN v ↔ (IsInf a ∧ IsInf b) ∨ (IsZero a ∧ IsZero b)))

/-- Under ValueCorrect and without quotient saturation, DIV is the exact quotient rounded toward zero, or zero below the
normals.
For finite nonzero operands with siga < 2 * sigb, under ValueCorrect, with N/D the exact quotient in units of 2^-133:
DIV answers next, changing only r; r has the XOR sign; r is infinite when the quotient is at least 2^128, a zero when
it is below the smallest normal 2^-126, and otherwise normal, at most the quotient and less than one unit in the last
place below it. It rests on the informative values of R22 (log entry 18).
Derived from 44_divider.md section 2, 41_normalizer.md section 2, 10_state.md section 3.
R99 drops the low bits of the quotient; R67: truncation is rounding toward zero magnitude. -/
def Obligations.DivIsTruncatedExactQuotient : Prop :=
  ∀ (a b : Word) (s : State), IsFiniteNonzero a → IsFiniteNonzero b → sigOf a < 2 * sigOf b →
    s.params.divDenormAdj = .valueCorrect →
    let N := scaledOf a * 2 ^ 133
    let D := scaledOf b
    ∃ v : Word, exec (.div a b) s = .next { s with r := v } ∧ signOf v = signXor a b ∧
      (D * (2 ^ 128 * 2 ^ 133) ≤ N → IsInf v) ∧
      (N < D * 2 ^ 7 → IsZero v) ∧
      (D * 2 ^ 7 ≤ N → N < D * (2 ^ 128 * 2 ^ 133) →
        IsNormal v ∧ scaledOf v * D ≤ N ∧ N < (scaledOf v + ulpOf v) * D)

/-- The value of a pattern is its sign and its scaled magnitude over 2^133, or an infinity, or no number.
For every pattern: a finite one stands for its sign and scaledOf / 2^133, which is 2^(e-127) * (1 + m/128) for a
normal and 2^-126 * m/128 for a denormal; an infinite one for the infinity of its sign; a NaN for no number. R22 is
informative and its denormal scale is PRESUMED (log entry 18).
Derived from 10_state.md section 3. -/
def Obligations.NumericValueOfPattern : Prop :=
  ∀ v : Word,
    (IsFinite v → numericValue v = .finite (decide (signOf v = 1)) ((scaledOf v : ℚ) / 2 ^ 133)) ∧
    (IsInf v → numericValue v = .infinity (decide (signOf v = 1))) ∧
    (IsNaN v → numericValue v = .nan)

/-- A line assembles exactly when it refers to earlier results only, to the request of its mnemonic and operand values,
and issuing it keeps its result.
With the results of the earlier lines held, a line of the notation assembles exactly when every reference is to a line
before it. With v and w the values of its operands (a pattern itself, or the held result of the line %j names), a
binary line assembles to its operation on v and w, a unary line to its operation on v with b = 0x0000, NEG to SUB
0x0000, v and COPY to ADD 0x0000, v. Issuing a line that assembles to i drives i, steps the unit, and adds the result
that exec gives i to the results held; nothing else changes. The held list is the choice of log entry 19.
Derived from 30_encoding.md section 4, 70_reset_and_hazards.md section 4. -/
def Obligations.WellFormedLinesAssembleAndRun : Prop :=
  (∀ (l : Line) (held : List Word),
    (∃ i : Instr, assemble held l = .ok i) ↔ l.wf (held.length + 1) = true) ∧
  (∀ (held : List Word) (x y : Operand) (v w : Word), OperandIs held x v → OperandIs held y w →
    assemble held (.add x y) = .ok (.add v w) ∧ assemble held (.sub x y) = .ok (.sub v w) ∧
    assemble held (.mul x y) = .ok (.mul v w) ∧ assemble held (.div x y) = .ok (.div v w)) ∧
  (∀ (held : List Word) (x : Operand) (v : Word), OperandIs held x v →
    assemble held (.iszero x) = .ok (.iszero v 0x0000#16) ∧ assemble held (.isnan x) = .ok (.isnan v 0x0000#16) ∧
    assemble held (.isinf x) = .ok (.isinf v 0x0000#16) ∧
    assemble held (.classify x) = .ok (.classify v 0x0000#16) ∧
    assemble held (.neg x) = .ok (.sub 0x0000#16 v) ∧ assemble held (.copy x) = .ok (.add 0x0000#16 v)) ∧
  (∀ (l : Line) (c : Caller) (i : Instr), assemble c.held l = .ok i → ∃ v : Word,
    exec i c.unit = .next { c.unit with r := v } ∧
    issue l c = .ok (.next
      { unit := { params := c.unit.params, op := i.opSel, a := i.operandA, b := i.operandB, r := v },
        held := c.held ++ [v] }))

/-- The exponent of a quotient is the stored exponent difference plus 127, corrected for denormals as the instance says.
For all stored exponents ea and eb the exponent before renormalisation is ea - eb + 127, plus 1 for a zero ea and
minus 1 for a zero eb under ValueCorrect, and minus 1 and plus 1 under Inverted. Under both, when both are zero the
corrections cancel.
Formalises R98. -/
def Obligations.DivExponentFollowsInstance : Prop :=
  ∀ (p : Params) (ea eb : BitVec 8),
    (p.divDenormAdj = .valueCorrect → divExponent p ea eb =
      (ea.toNat : Int) - (eb.toNat : Int) + 127 + (if ea = 0#8 then 1 else 0) - (if eb = 0#8 then 1 else 0)) ∧
    (p.divDenormAdj = .inverted → divExponent p ea eb =
      (ea.toNat : Int) - (eb.toNat : Int) + 127 - (if ea = 0#8 then 1 else 0) + (if eb = 0#8 then 1 else 0)) ∧
    (ea = 0#8 → eb = 0#8 → divExponent p ea eb = 127)
end

