-- ==== Sys2Proof/Laws/Fields.lean ====
section
/-! SUPPORT. The field functions of 40_classifier.md as plain arithmetic: what each of dec, significand, enc, the
predicates, the special patterns and the sign flip gives, once. -/

namespace Sys2Proof.Laws

open Sys2Proof.Machine

theorem signOf_le_one (v : Word) : signOf v ≤ 1 := by
  have := v.isLt
  unfold signOf
  omega

theorem expOf_le (v : Word) : expOf v ≤ 255 := by
  unfold expOf
  omega

theorem fracOf_le (v : Word) : fracOf v ≤ 127 := by
  unfold fracOf
  omega

theorem sigOf_le (v : Word) : sigOf v ≤ 255 := by
  have := fracOf_le v
  unfold sigOf
  split <;> omega

/-- A finite nonzero pattern has a nonzero significand. -/
theorem sigOf_pos {v : Word} (h : ¬ IsZero v) : 1 ≤ sigOf v := by
  unfold sigOf
  split
  · have : fracOf v ≠ 0 := fun hm => h ⟨‹_›, hm⟩
    omega
  · omega

/-! ### Decomposition (R52) -/

@[simp] theorem dec_s_toNat (v : Word) : (dec v).s.toNat = signOf v := by
  have := v.isLt
  simp only [dec, signOf, BitVec.extractLsb'_toNat, Nat.shiftRight_eq_div_pow]
  omega

@[simp] theorem dec_e_toNat (v : Word) : (dec v).e.toNat = expOf v := by
  simp only [dec, expOf, BitVec.extractLsb'_toNat, Nat.shiftRight_eq_div_pow, Nat.reducePow]

@[simp] theorem dec_m_toNat (v : Word) : (dec v).m.toNat = fracOf v := by
  simp only [dec, fracOf, BitVec.extractLsb'_toNat, Nat.shiftRight_eq_div_pow]
  omega

theorem dec_s_eq_iff (a b : Word) : (dec a).s = (dec b).s ↔ signOf a = signOf b := by
  rw [← BitVec.toNat_inj, dec_s_toNat, dec_s_toNat]

theorem dec_e_eq_zero_iff (v : Word) : (dec v).e = 0#8 ↔ expOf v = 0 := by
  rw [← BitVec.toNat_inj, dec_e_toNat]
  rfl

theorem dec_e_eq_max_iff (v : Word) : (dec v).e = 255#8 ↔ expOf v = 255 := by
  rw [← BitVec.toNat_inj, dec_e_toNat]
  rfl

theorem dec_m_eq_zero_iff (v : Word) : (dec v).m = 0#7 ↔ fracOf v = 0 := by
  rw [← BitVec.toNat_inj, dec_m_toNat]
  rfl

/-! ### Predicates (R53) and the significand (R44) -/

theorem isZeroF_dec (v : Word) : isZeroF (dec v) = decide (IsZero v) := by
  simp [isZeroF, dec_e_eq_zero_iff, dec_m_eq_zero_iff]

theorem isDenF_dec (v : Word) : isDenF (dec v) = decide (IsDenormal v) := by
  simp [isDenF, dec_e_eq_zero_iff, dec_m_eq_zero_iff]

theorem isNormF_dec (v : Word) : isNormF (dec v) = decide (IsNormal v) := by
  simp [isNormF]

theorem isInfF_dec (v : Word) : isInfF (dec v) = decide (IsInf v) := by
  simp [isInfF, dec_e_eq_max_iff, dec_m_eq_zero_iff]

theorem isNaNF_dec (v : Word) : isNaNF (dec v) = decide (IsNaN v) := by
  simp [isNaNF, dec_e_eq_max_iff, dec_m_eq_zero_iff]

/-- Setting bit 7 of a 7-bit number adds 128. -/
theorem or_128 {m : Nat} (h : m < 128) : 0x80 ||| m = 128 + m := by
  have := Nat.two_pow_add_eq_or_of_lt (i := 7) (b := m) (by simpa using h) 1
  simpa using this.symm

@[simp] theorem significand_dec (v : Word) : significand (dec v) = sigOf v := by
  have h : fracOf v < 128 := by
    have := fracOf_le v
    omega
  simp only [significand, sigOf, dec_m_toNat, ne_eq, dec_e_eq_zero_iff]
  by_cases he : expOf v = 0
  · simp [he]
  · simp [he, or_128 h]

/-! ### Packing (R54, R55) -/

theorem enc_toNat (s e m : Nat) :
    (enc s e m).toNat = s % 2 * 32768 + e % 256 * 128 + m % 128 := by
  have hs : s &&& 1 = s % 2 := Nat.and_one_is_mod s
  have he : e &&& 0xFF = e % 256 := Nat.and_two_pow_sub_one_eq_mod e 8
  have hm : m &&& 0x7F = m % 128 := Nat.and_two_pow_sub_one_eq_mod m 7
  have h1 : m % 128 < 2 ^ 7 := Nat.mod_lt _ (by decide)
  have h2 : e % 256 < 2 ^ 8 := Nat.mod_lt _ (by decide)
  have key : ((s % 2) <<< 15) ||| ((e % 256) <<< 7) ||| (m % 128)
      = s % 2 * 32768 + e % 256 * 128 + m % 128 := by
    have hb : (e % 256) <<< 7 < 2 ^ 15 := by
      rw [Nat.shiftLeft_eq]
      omega
    rw [Nat.or_assoc, ← Nat.shiftLeft_add_eq_or_of_lt h1,
      ← Nat.shiftLeft_add_eq_or_of_lt (a := s % 2) (i := 15)]
    · simp only [Nat.shiftLeft_eq]
      omega
    · rw [Nat.shiftLeft_eq]
      omega
  rw [enc, hs, he, hm, key, BitVec.toNat_ofNat]
  omega

/-- Every call of `enc` in the datapaths packs its three fields, less the implicit bit of `m` (R54). -/
theorem enc_eq_packed {s e : Nat} (m : Nat) (he : e ≤ 255) :
    enc s e m = packed s e (m % 128) := by
  apply BitVec.eq_of_toNat_eq
  rw [enc_toNat, packed, BitVec.toNat_ofNat]
  omega

theorem signOf_packed {s e m : Nat} (hs : s ≤ 1) (he : e ≤ 255) (hm : m ≤ 127) :
    signOf (packed s e m) = s := by
  simp only [signOf, packed, BitVec.toNat_ofNat]
  omega

theorem expOf_packed {s e m : Nat} (he : e ≤ 255) (hm : m ≤ 127) :
    expOf (packed s e m) = e := by
  simp only [expOf, packed, BitVec.toNat_ofNat]
  omega

theorem fracOf_packed {s e m : Nat} (hm : m ≤ 127) :
    fracOf (packed s e m) = m := by
  simp only [fracOf, packed, BitVec.toNat_ofNat]
  omega

/-- A pattern is its three fields packed. -/
theorem packed_fields (v : Word) : packed (signOf v) (expOf v) (fracOf v) = v := by
  have := v.isLt
  apply BitVec.eq_of_toNat_eq
  simp only [signOf, expOf, fracOf, packed, BitVec.toNat_ofNat]
  omega

/-- Two patterns with the same fields are the same pattern. -/
theorem word_ext {v w : Word} (hs : signOf v = signOf w) (he : expOf v = expOf w)
    (hm : fracOf v = fracOf w) : v = w := by
  rw [← packed_fields v, ← packed_fields w, hs, he, hm]

theorem signedZero_eq (s : BitVec 1) : signedZero s = zeroOf s.toNat :=
  enc_eq_packed 0 (by omega)

theorem signedInf_eq (s : BitVec 1) : signedInf s = infOf s.toNat :=
  enc_eq_packed 0 (Nat.le_refl 255)

/-! ### Signs (R45, R84) -/

@[simp] theorem xorSign_toNat (a b : Word) : (xorSign a b).toNat = signXor a b := by
  have ha := signOf_le_one a
  have hb := signOf_le_one b
  simp only [xorSign, signXor, BitVec.toNat_xor, dec_s_toNat]
  have h0 : signOf a = 0 ∨ signOf a = 1 := by omega
  have h1 : signOf b = 0 ∨ signOf b = 1 := by omega
  rcases h0 with h0 | h0 <;> rcases h1 with h1 | h1 <;> simp [h0, h1]

/-- Flipping bit 15 as arithmetic (R45). -/
theorem flipSign_toNat (v : Word) : (flipSign v).toNat = (v.toNat + 32768) % 65536 := by
  have hv := v.isLt
  have hx : (flipSign v).toNat = v.toNat ^^^ 32768 := by simp [flipSign]
  have hd : (v.toNat ^^^ 32768) / 2 ^ 15 = v.toNat / 2 ^ 15 ^^^ 1 := by
    rw [Nat.xor_div_two_pow]
  have hm : (v.toNat ^^^ 32768) % 2 ^ 15 = v.toNat % 2 ^ 15 := by
    rw [Nat.xor_mod_two_pow]
    simp
  have h01 : v.toNat / 2 ^ 15 = 0 ∨ v.toNat / 2 ^ 15 = 1 := by omega
  rw [hx]
  rcases h01 with h | h <;> rw [h] at hd <;> simp at hd <;> omega

theorem signOf_flipSign (v : Word) : signOf (flipSign v) = 1 - signOf v := by
  have := v.isLt
  simp only [signOf, flipSign_toNat]
  omega

@[simp] theorem expOf_flipSign (v : Word) : expOf (flipSign v) = expOf v := by
  have := v.isLt
  simp only [expOf, flipSign_toNat]
  omega

@[simp] theorem fracOf_flipSign (v : Word) : fracOf (flipSign v) = fracOf v := by
  have := v.isLt
  simp only [fracOf, flipSign_toNat]
  omega

@[simp] theorem sigOf_flipSign (v : Word) : sigOf (flipSign v) = sigOf v := by
  simp [sigOf]

/-! ### Window tests -/

/-- The top bit of an `n + 1`-bit number is set exactly when the number is at least `2 ^ n`. -/
theorem testBit_top {n x : Nat} (h : x < 2 ^ (n + 1)) : x.testBit n = decide (2 ^ n ≤ x) := by
  rw [Nat.testBit_eq_decide_div_mod_eq]
  have hp : 0 < 2 ^ n := Nat.two_pow_pos n
  have hlt : x / 2 ^ n < 2 := by
    rw [Nat.div_lt_iff_lt_mul hp]
    omega
  have : (x / 2 ^ n = 1) ↔ 2 ^ n ≤ x := by
    rw [← Nat.one_le_div_iff hp]
    omega
  rw [Nat.mod_eq_of_lt hlt]
  simp [this]

end Sys2Proof.Laws
end

