-- ==== Sys2Proof/Laws/State.lean ====
section
/-! SUPPORT. One lemma per field per update of State, so that no proof unfolds a record update. -/

namespace Sys2Proof.Laws

open Sys2Proof.Machine

@[simp] theorem driveResult_params (v : Word) (s : State) : (driveResult v s).params = s.params := rfl
@[simp] theorem driveResult_op (v : Word) (s : State) : (driveResult v s).op = s.op := rfl
@[simp] theorem driveResult_a (v : Word) (s : State) : (driveResult v s).a = s.a := rfl
@[simp] theorem driveResult_b (v : Word) (s : State) : (driveResult v s).b = s.b := rfl
@[simp] theorem driveResult_r (v : Word) (s : State) : (driveResult v s).r = v := rfl

@[simp] theorem driveRequest_params (s : State) (w : RequestWord) : (s.driveRequest w).params = s.params := rfl
@[simp] theorem driveRequest_op (s : State) (w : RequestWord) : (s.driveRequest w).op = w.extractLsb' 32 3 := rfl
@[simp] theorem driveRequest_a (s : State) (w : RequestWord) : (s.driveRequest w).a = w.extractLsb' 16 16 := rfl
@[simp] theorem driveRequest_b (s : State) (w : RequestWord) : (s.driveRequest w).b = w.extractLsb' 0 16 := rfl
@[simp] theorem driveRequest_r (s : State) (w : RequestWord) : (s.driveRequest w).r = s.r := rfl

@[simp] theorem withFetchWord_params (s : State) (nbits w : Nat) : (s.withFetchWord nbits w).params = s.params := rfl
@[simp] theorem withFetchWord_r (s : State) (nbits w : Nat) : (s.withFetchWord nbits w).r = s.r := rfl

@[simp] theorem resetFor_params (p : Params) : (State.resetFor p).params = p := rfl
@[simp] theorem resetFor_op (p : Params) : (State.resetFor p).op = 0#3 := rfl
@[simp] theorem resetFor_a (p : Params) : (State.resetFor p).a = 0#16 := rfl
@[simp] theorem resetFor_b (p : Params) : (State.resetFor p).b = 0#16 := rfl
@[simp] theorem resetFor_r (p : Params) : (State.resetFor p).r = 0#16 := rfl
theorem reset_eq : State.reset = State.resetFor Params.default := rfl

/-- Driving the same result twice is driving it once. -/
@[simp] theorem driveResult_driveResult (v w : Word) (s : State) :
    driveResult v (driveResult w s) = driveResult v s := rfl

end Sys2Proof.Laws
end

