-- ==== Sys2Proof/Laws/Ports.lean ====
section
/-! SUPPORT. What the port operations and the meanings over them do: a request word's fields, the request on the ports,
and the one way a meaning ends. -/

namespace Sys2Proof.Laws

open Sys2Proof.Machine

theorem packRequest_toNat (op : OpSel) (a b : Word) :
    (packRequest op a b).toNat = op.toNat * 2 ^ 32 + a.toNat * 2 ^ 16 + b.toNat := by
  have ha := a.isLt
  have hb := b.isLt
  simp only [packRequest, BitVec.toNat_append]
  rw [← Nat.shiftLeft_add_eq_or_of_lt hb, ← Nat.shiftLeft_add_eq_or_of_lt ha]
  simp only [Nat.shiftLeft_eq]
  omega

/-- R41's formula for a request written as numbers that fit the ports. -/
theorem rawRequest_word_eq {q : RawRequest} (h : q.wf = true) :
    q.word = q.op * 2 ^ 32 + q.a * 2 ^ 16 + q.b := by
  simp only [RawRequest.wf, Bool.and_eq_true, decide_eq_true_eq] at h
  have hb : q.b < 2 ^ 16 := h.2
  have hlow : (q.a <<< 16) ||| q.b = q.a * 65536 + q.b := by
    rw [← Nat.shiftLeft_add_eq_or_of_lt hb, Nat.shiftLeft_eq]
  have hlt : q.a * 65536 + q.b < 2 ^ 32 := by omega
  rw [RawRequest.word, Nat.or_assoc, hlow, ← Nat.shiftLeft_add_eq_or_of_lt hlt, Nat.shiftLeft_eq]
  omega

@[simp] theorem packRequest_op (op : OpSel) (a b : Word) :
    (packRequest op a b).extractLsb' 32 3 = op := by
  have h := packRequest_toNat op a b
  have := a.isLt
  have := b.isLt
  have := op.isLt
  apply BitVec.eq_of_toNat_eq
  rw [BitVec.extractLsb'_toNat, h, Nat.shiftRight_eq_div_pow]
  omega

@[simp] theorem packRequest_a (op : OpSel) (a b : Word) :
    (packRequest op a b).extractLsb' 16 16 = a := by
  have h := packRequest_toNat op a b
  have := a.isLt
  have := b.isLt
  apply BitVec.eq_of_toNat_eq
  rw [BitVec.extractLsb'_toNat, h, Nat.shiftRight_eq_div_pow]
  omega

@[simp] theorem packRequest_b (op : OpSel) (a b : Word) :
    (packRequest op a b).extractLsb' 0 16 = b := by
  have h := packRequest_toNat op a b
  have := b.isLt
  apply BitVec.eq_of_toNat_eq
  rw [BitVec.extractLsb'_toNat, h, Nat.shiftRight_eq_div_pow]
  omega

/-- A request word is its three fields side by side (R41). -/
theorem packRequest_fields (w : RequestWord) :
    packRequest (w.extractLsb' 32 3) (w.extractLsb' 16 16) (w.extractLsb' 0 16) = w := by
  apply BitVec.eq_of_toNat_eq
  have := w.isLt
  rw [packRequest_toNat]
  simp only [BitVec.extractLsb'_toNat, Nat.shiftRight_eq_div_pow]
  omega

/-- The request on the ports is the one the operation map gives for them (R41, R42). -/
theorem fetch_eq (s : State) : fetch s = decodeFields s.op s.a s.b := by
  simp [fetch, State.requestWord, decode]

/-- Driving a request word puts exactly it on the ports (R121). -/
@[simp] theorem requestWord_driveRequest (s : State) (w : RequestWord) :
    (s.driveRequest w).requestWord = w :=
  packRequest_fields w

/-- All a meaning can do: it drives one result and changes nothing else (R12, R35). -/
theorem answer_eq_next_iff (v : Word) (s t : State) :
    answer v s = .next t ↔ t = { s with r := v } := by
  constructor
  · intro h
    cases h
    rfl
  · rintro rfl
    rfl

/-! Each meaning is the answer of its sub-unit. -/

theorem exec_add (a b : Word) (s : State) :
    exec (.add a b) s = answer (adder s.params a b false) s := rfl
theorem exec_sub (a b : Word) (s : State) :
    exec (.sub a b) s = answer (adder s.params a b true) s := rfl
theorem exec_mul (a b : Word) (s : State) :
    exec (.mul a b) s = answer (multiplier s.params a b) s := rfl
theorem exec_div (a b : Word) (s : State) :
    exec (.div a b) s = answer (divider s.params a b) s := rfl
theorem exec_iszero (a b : Word) (s : State) :
    exec (.iszero a b) s = answer (boolResult (isZeroF (dec a))) s := rfl
theorem exec_isnan (a b : Word) (s : State) :
    exec (.isnan a b) s = answer (boolResult (isNaNF (dec a))) s := rfl
theorem exec_isinf (a b : Word) (s : State) :
    exec (.isinf a b) s = answer (boolResult (isInfF (dec a))) s := rfl
theorem exec_classify (a b : Word) (s : State) :
    exec (.classify a b) s = answer ((classCode (classOf (dec a))).setWidth 16) s := rfl

end Sys2Proof.Laws
end

