-- ==== Sys2Proof/Laws/Datapath.lean ====
section
/-! SUPPORT. What the special-case tests, the alignment and one division step give, once, in the terms of Safety.lean. -/

namespace Sys2Proof.Laws

open Sys2Proof.Machine

/-! ### Special cases (R70, R71, R85, R95) -/

theorem addNaNInf_eq (a b : Word) :
    addNaNInf a b =
      if expOf a = 255 then
        if fracOf a ≠ 0 then some a
        else if expOf b = 255 then
          if fracOf b ≠ 0 then some b
          else if signOf a = signOf b then some a
          else some 0x7FC0#16
        else some a
      else if expOf b = 255 then some b
      else none := by
  simp only [addNaNInf, dec_e_eq_max_iff, ne_eq, dec_m_eq_zero_iff, dec_s_eq_iff, canonNaN]

theorem addZero_eq (a b : Word) :
    addZero a b = if IsZero a then some b else if IsZero b then some a else none := by
  simp only [addZero, isZeroF_dec, decide_eq_true_eq]

theorem signedZero_xorSign (a b : Word) : signedZero (xorSign a b) = zeroOf (signXor a b) := by
  rw [signedZero_eq, xorSign_toNat]

theorem signedInf_xorSign (a b : Word) : signedInf (xorSign a b) = infOf (signXor a b) := by
  rw [signedInf_eq, xorSign_toNat]

theorem mulSpecial_eq (a b : Word) :
    mulSpecial a b =
      if IsNaN a then some a
      else if IsNaN b then some b
      else if IsInf a then
        if IsZero b then some 0x7FC0#16 else some (infOf (signXor a b))
      else if IsInf b then
        if IsZero a then some 0x7FC0#16 else some (infOf (signXor a b))
      else if IsZero a ∨ IsZero b then some (zeroOf (signXor a b))
      else none := by
  simp only [mulSpecial, isNaNF_dec, isInfF_dec, isZeroF_dec, decide_eq_true_eq, Bool.or_eq_true,
    signedInf_xorSign, signedZero_xorSign, canonNaN]

theorem divSpecialNaNFirst_eq (a b : Word) :
    divSpecialNaNFirst a b =
      if IsNaN a then some a
      else if IsNaN b then some b
      else if IsInf a ∧ IsInf b then some 0x7FC0#16
      else if IsZero a ∧ IsZero b then some 0x7FC0#16
      else if IsInf a then some (infOf (signXor a b))
      else if IsInf b then some (zeroOf (signXor a b))
      else if IsZero b then some (infOf (signXor a b))
      else if IsZero a then some (zeroOf (signXor a b))
      else none := by
  simp only [divSpecialNaNFirst, isNaNF_dec, isInfF_dec, isZeroF_dec, decide_eq_true_eq,
    Bool.and_eq_true, signedInf_xorSign, signedZero_xorSign, canonNaN]

theorem divSpecialDivisorFirst_eq (a b : Word) :
    divSpecialDivisorFirst a b =
      if expOf b = 255 then
        if fracOf b ≠ 0 then some b
        else if IsInf a then some 0x7FC0#16
        else some (zeroOf (signXor a b))
      else if IsZero b then
        if IsZero a then some 0x7FC0#16 else some (infOf (signXor a b))
      else if expOf a = 255 then
        if fracOf a ≠ 0 then some a else some (infOf (signXor a b))
      else if IsZero a then some (zeroOf (signXor a b))
      else none := by
  simp only [divSpecialDivisorFirst, dec_e_eq_max_iff, ne_eq, dec_m_eq_zero_iff, isInfF_dec,
    isZeroF_dec, decide_eq_true_eq, signedInf_xorSign, signedZero_xorSign, canonNaN]

/-- The finite path is reached exactly when both operands are finite and nonzero. -/
theorem mulSpecial_eq_none_iff (a b : Word) :
    mulSpecial a b = none ↔ IsFiniteNonzero a ∧ IsFiniteNonzero b := by
  have ha := expOf_le a
  have hb := expOf_le b
  rw [mulSpecial_eq]
  split_ifs <;> simp_all <;> omega

/-- The finite path is reached exactly when both operands are finite and nonzero, in both orders (R95). -/
theorem divSpecial_eq_none_iff (p : Params) (a b : Word) :
    divSpecial p a b = none ↔ IsFiniteNonzero a ∧ IsFiniteNonzero b := by
  have ha := expOf_le a
  have hb := expOf_le b
  cases h : p.divSpecialOrder
  · rw [divSpecial, h]
    show divSpecialNaNFirst a b = none ↔ _
    rw [divSpecialNaNFirst_eq]
    split_ifs <;> simp_all
    all_goals omega
  · rw [divSpecial, h]
    show divSpecialDivisorFirst a b = none ↔ _
    rw [divSpecialDivisorFirst_eq]
    split_ifs <;> simp_all
    all_goals omega

/-! ### Alignment (R72, R73) -/

/-- The early exit, or both significands aligned to the larger stored exponent. -/
theorem align_eq (a b : Word) :
    align a b =
      if expOf b + 8 < expOf a then .early a
      else if expOf a + 8 < expOf b then .early b
      else .aligned (alignedSig a (max (expOf a) (expOf b))) (alignedSig b (max (expOf a) (expOf b)))
        (max (expOf a) (expOf b)) := by
  have hself : ∀ v : Word, alignedSig v (expOf v) = sigOf v := fun v => by simp [alignedSig]
  simp only [align, significand_dec, dec_e_toNat, addSkip]
  rcases Nat.lt_trichotomy (expOf a) (expOf b) with h | h | h
  · have hd : (-((expOf a : Int) - expOf b)).toNat = expOf b - expOf a := by omega
    rw [if_neg (by omega), if_pos (by omega : (expOf a : Int) - expOf b < 0)]
    rw [if_neg (by omega : ¬ expOf b + 8 < expOf a), Nat.max_eq_right (Nat.le_of_lt h), hself, hd]
    simp only [alignedSig, Nat.shiftRight_eq_div_pow]
    congr 1
    exact propext ⟨fun _ => by omega, fun _ => by omega⟩
  · rw [if_neg (by omega), if_neg (by omega), if_neg (by omega), if_neg (by omega), h,
      Nat.max_self, hself, ← h, hself]
  · have hd : ((expOf a : Int) - expOf b).toNat = expOf a - expOf b := by omega
    rw [if_pos (by omega)]
    rw [if_neg (by omega : ¬ expOf a + 8 < expOf b), Nat.max_eq_left (Nat.le_of_lt h), hself, hd]
    simp only [alignedSig, Nat.shiftRight_eq_div_pow]
    congr 1
    exact propext ⟨fun _ => by omega, fun _ => by omega⟩

/-! ### One division step (R97) and the denormal correction (R98) -/

/-- A step doubles the quotient within 16 bits and adds 1 exactly when the aligned divisor fits. -/
theorem divIter_eq (sigb j : Nat) (d : DivRegs) :
    divIter sigb j d =
      if sigb * 2 ^ j ≤ d.rem then ⟨d.rem - sigb * 2 ^ j, 2 * d.q % 65536 + 1⟩
      else ⟨d.rem, 2 * d.q % 65536⟩ := by
  have hq : (d.q <<< 1) &&& 0xFFFF = 2 * d.q % 65536 := by
    rw [Nat.and_two_pow_sub_one_eq_mod _ 16, Nat.shiftLeft_eq, Nat.mul_comm]
  have hor : (2 * d.q % 65536) ||| 1 = 2 * d.q % 65536 + 1 := by
    have h := Nat.two_pow_add_eq_or_of_lt (i := 1) (b := 1) (by decide) (2 * d.q % 65536 / 2)
    have he : 2 ^ 1 * (2 * d.q % 65536 / 2) = 2 * d.q % 65536 := by omega
    rw [he] at h
    exact h.symm
  simp only [divIter, hq, hor, Nat.shiftLeft_eq sigb, ge_iff_le]

theorem denormAdj_eq (p : Params) (a b : Word) :
    denormAdj p (dec a).e (dec b).e =
      if p.divDenormAdj = .valueCorrect then
        (if expOf a = 0 then 1 else 0) - (if expOf b = 0 then 1 else 0)
      else -((if expOf a = 0 then 1 else 0) - (if expOf b = 0 then 1 else 0)) := by
  cases h : p.divDenormAdj <;> simp only [denormAdj, h, dec_e_eq_zero_iff] <;> split_ifs <;> simp_all

/-- The exponent before renormalisation in terms of the operands (R98). -/
theorem divExponent_dec (p : Params) (a b : Word) :
    divExponent p (dec a).e (dec b).e =
      (expOf a : Int) - (expOf b : Int) + 127 + denormAdj p (dec a).e (dec b).e := by
  simp [divExponent, bias]

/-- One iteration more (R97). -/
theorem divPartial_succ (x y i : Nat) :
    divPartial x y (i + 1) = divIter y (15 - i) (divPartial x y i) := rfl

/-- A division step never makes the remainder larger. -/
theorem divIter_rem_le (sigb j : Nat) (d : DivRegs) : (divIter sigb j d).rem ≤ d.rem := by
  rw [divIter_eq]
  split
  · exact Nat.sub_le _ _
  · exact Nat.le_refl _

/-! ### Operands of a line (R50) -/

/-- An operand assembles to a value exactly when it has that value. -/
theorem operandValue_eq_ok_iff (held : List Word) (x : Operand) (v : Word) :
    operandValue held x = .ok v ↔ OperandIs held x v := by
  cases x with
  | pattern u => simp [operandValue, OperandIs, eq_comm]
  | result j =>
    cases j with
    | zero => simp [operandValue, OperandIs]
    | succ j =>
      simp only [operandValue, OperandIs]
      cases h : held[j]? <;> simp [h]

end Sys2Proof.Laws
end

