-- ==== Sys2Proof/Laws/PerInstr.lean ====
section
/-! SUPPORT. Facts about each request as syntax, one lemma per constructor. -/

namespace Sys2Proof.Laws

/-- Family: every request is well-formed (10_state.md R21, 30_encoding.md R48), and its mnemonic is the one the
operation map gives its `op` value (30_encoding.md R42). -/
def OpMap.Statement (i : Instr) : Prop :=
  i.wf = true ∧
    ["ADD", "SUB", "MUL", "DIV", "ISZERO", "ISNAN", "ISINF", "CLASS"][i.opSel.toNat]? = some i.mnemonic

/-- Two operand ports hold any two patterns. -/
theorem operands_fit (a b : Word) :
    (decide (a.toNat < 65536) && decide (b.toNat < 65536)) = true := by
  have := a.isLt
  have := b.isLt
  simp only [Bool.and_eq_true, decide_eq_true_eq]
  omega

theorem OpMap.add (a b : Word) : OpMap.Statement (.add a b) := ⟨operands_fit a b, rfl⟩
theorem OpMap.sub (a b : Word) : OpMap.Statement (.sub a b) := ⟨operands_fit a b, rfl⟩
theorem OpMap.mul (a b : Word) : OpMap.Statement (.mul a b) := ⟨operands_fit a b, rfl⟩
theorem OpMap.div (a b : Word) : OpMap.Statement (.div a b) := ⟨operands_fit a b, rfl⟩
theorem OpMap.iszero (a b : Word) : OpMap.Statement (.iszero a b) := ⟨operands_fit a b, rfl⟩
theorem OpMap.isnan (a b : Word) : OpMap.Statement (.isnan a b) := ⟨operands_fit a b, rfl⟩
theorem OpMap.isinf (a b : Word) : OpMap.Statement (.isinf a b) := ⟨operands_fit a b, rfl⟩
theorem OpMap.classify (a b : Word) : OpMap.Statement (.classify a b) := ⟨operands_fit a b, rfl⟩

/-- Every request is well-formed (R21, R48). -/
theorem wf_all (i : Instr) : i.wf = true := by
  cases i <;> exact operands_fit _ _

end Sys2Proof.Laws
end

