-- ==== Sys2Proof/Tests/Slice0.lean ====
section
/-! SUPPORT. Tests of the model and, for every statement of Certificates/Slice0/Obligations.lean that has hypotheses, a
witness that meets them. Expected values are from 95_test_vectors.md and the worked values of files 30 to 44. -/

namespace Sys2Proof.Tests

open Sys2Proof.Machine

/-! ### Well-formedness: a term each check refuses -/

theorem test_wf_accepts_widest : (RawRequest.mk 7 0xFFFF 0xFFFF).wf = true := by decide
theorem test_wf_refuses_wide_op : (RawRequest.mk 8 0 0).wf = false := by decide
theorem test_wf_refuses_wide_a : (RawRequest.mk 0 0x10000 0).wf = false := by decide
theorem test_wf_refuses_wide_b : (RawRequest.mk 0 0 0x10000).wf = false := by decide
theorem test_wf_accepts_earlier_line : (Line.add (.result 1) (.result 2)).wf 3 = true := by decide
theorem test_wf_refuses_own_line : (Line.add (.pattern 1#16) (.result 3)).wf 3 = false := by decide
theorem test_wf_refuses_line_zero : (Line.isnan (.result 0)).wf 3 = false := by decide

/-! ### Decoding and encoding: one word per constructor, written out from 30_encoding.md R41 and R42 -/

theorem test_decode_add : decode 0b00000111111100000000100000000000000#35 = .add 0x3F80#16 0x4000#16 := by decide
theorem test_decode_sub : decode 0b00101000000010000000100000000000000#35 = .sub 0x4040#16 0x4000#16 := by decide
theorem test_decode_mul : decode 0b01001000000000000000100000001000000#35 = .mul 0x4000#16 0x4040#16 := by decide
theorem test_decode_div : decode 0b01101000000110000001000000000000001#35 = .div 0x40C0#16 0x8001#16 := by decide
theorem test_decode_iszero : decode 0b10010000000000000000001001000110100#35 = .iszero 0x8000#16 0x1234#16 := by decide
theorem test_decode_isnan : decode 0b10101111111100000010000000000000000#35 = .isnan 0x7F81#16 0x0000#16 := by decide
theorem test_decode_isinf : decode 0b11011111111100000000000000000000001#35 = .isinf 0xFF80#16 0x0001#16 := by decide
theorem test_decode_classify : decode 0b11100000000011111111111111111111111#35 = .classify 0x007F#16 0xFFFF#16 := by decide

theorem test_encode_add : encode (.add 0x3F80#16 0x4000#16) = 0b00000111111100000000100000000000000#35 := by decide
theorem test_encode_sub : encode (.sub 0x4040#16 0x4000#16) = 0b00101000000010000000100000000000000#35 := by decide
theorem test_encode_mul : encode (.mul 0x4000#16 0x4040#16) = 0b01001000000000000000100000001000000#35 := by decide
theorem test_encode_div : encode (.div 0x40C0#16 0x8001#16) = 0b01101000000110000001000000000000001#35 := by decide
theorem test_encode_iszero : encode (.iszero 0x8000#16 0x1234#16) = 0b10010000000000000000001001000110100#35 := by decide
theorem test_encode_isnan : encode (.isnan 0x7F81#16 0x0000#16) = 0b10101111111100000010000000000000000#35 := by decide
theorem test_encode_isinf : encode (.isinf 0xFF80#16 0x0001#16) = 0b11011111111100000000000000000000001#35 := by decide
theorem test_encode_classify : encode (.classify 0x007F#16 0xFFFF#16) = 0b11100000000011111111111111111111111#35 := by decide

theorem test_raw_request_word : (RawRequest.mk 1 0x4040 0x4000).word = 0x140404000 := by decide
theorem test_decode_refuses_bit_35 : decodeNumber 0x800000000 = .error .widerThanRequest := by decide
theorem test_table_word_in_40_bits : decodeTableWord 40 0x7FFFFFFFF = some (.classify 0xFFFF#16 0xFFFF#16) := by
  decide
theorem test_table_word_refuses_bit_35 : decodeTableWord 40 0x800000000 = none := by decide

/-! ### One step each, from power-up, on a request word of 95_test_vectors.md -/

/-- The result of the first request `w` made of an instance with parameters `p`. -/
def resultOf (p : Params) (w : Nat) : Option Word :=
  match step ((State.resetFor p).withFetchWord 40 w) with
  | .next t => some t.r
  | _ => none

/-- L2.3: the aligned operand loses bit 0, then 7 renormalising shifts -/
theorem test_add_loses_aligned_bit : resultOf Params.default 0x03F80BF7F = some 0x3C00#16 := by decide
/-- L2.3: overflow under CanonicalNaN -/
theorem test_add_overflow_as_nan : resultOf { Params.default with addOverflowResult := .canonicalNaN } 0x07F7F7F7F = some 0x7FC0#16 := by decide
/-- L2.4: a NaN b comes back sign-flipped (C6) -/
theorem test_sub_flips_nan : resultOf Params.default 0x13F807FC5 = some 0xFFC5#16 := by decide
/-- L2.4: +0 - +0 is -0 -/
theorem test_sub_zero_zero : resultOf Params.default 0x100000000 = some 0x8000#16 := by decide
/-- L2.5: denormal result -/
theorem test_mul_denormal_by_one : resultOf Params.default 0x23F80007F = some 0x007F#16 := by decide
/-- L2.5: the same under Fraction7 -/
theorem test_mul_denormal_fraction7 : resultOf { Params.default with mulSubnormalSource := .fraction7 } 0x23F80007F = some 0x003F#16 := by decide
/-- L2.6: 1 / 3, truncated -/
theorem test_div_third : resultOf Params.default 0x33F804040 = some 0x3EAA#16 := by decide
/-- L2.6: saturated quotient, denormal divisor, under Inverted -/
theorem test_div_saturated_inverted : resultOf { Params.default with divDenormAdj := .inverted } 0x300800001 = some 0x40FF#16 := by decide
/-- L2.1 -/
theorem test_iszero_negative_zero : resultOf Params.default 0x480001234 = some 0x0001#16 := by decide
/-- L2.1 -/
theorem test_iszero_denormal : resultOf Params.default 0x400010000 = some 0x0000#16 := by decide
/-- L2.1 -/
theorem test_isnan_smallest : resultOf Params.default 0x57F810000 = some 0x0001#16 := by decide
/-- L2.1 -/
theorem test_isnan_infinity : resultOf Params.default 0x57F800000 = some 0x0000#16 := by decide
/-- L2.1 -/
theorem test_isinf_negative : resultOf Params.default 0x6FF800000 = some 0x0001#16 := by decide
/-- L2.1 -/
theorem test_isinf_largest_finite : resultOf Params.default 0x67F7F0000 = some 0x0000#16 := by decide
/-- L2.1 -/
theorem test_class_normal : resultOf Params.default 0x73F80FFFF = some 0x0003#16 := by decide
/-- L2.1 -/
theorem test_class_denormal : resultOf Params.default 0x7807F0000 = some 0x0004#16 := by decide

/-- L2.2: the sub-unit functions. -/
theorem test_normalizer : clz32 0x80#32 = 24 ∧ normLeft8 0x7F = ⟨1, 0xFE⟩ ∧ normLeft16 0x5555 = ⟨1, 0xAAAA⟩ ∧
    normRight9 0x1FE = ⟨1, 0xFF⟩ ∧ normProd 0x9000 = ⟨1, 0x90⟩ := by decide

/-- R50, R51: `NEG %1` where line 1 gave 1.0 is `SUB 0x0000, 0x3F80`. -/
theorem test_assemble_neg :
    assemble [0x3F80#16] (.neg (.result 1)) = .ok (.sub 0x0000#16 0x3F80#16) := by decide

/-! ### Witnesses: the hypotheses of each statement are met, clause by clause, at the edges of their ranges -/

theorem witness_StepRunsRequestOnPorts :
    (Instr.mul 0x4000#16 0x4040#16).wf = true ∧
    decode (packRequest 2#3 0x4000#16 0x4040#16) = .mul 0x4000#16 0x4040#16 ∧
    packRequest 2#3 0x4000#16 0x4040#16 = encode (.mul 0x4000#16 0x4040#16) := by decide

theorem witness_DecodeEncodeRoundTrip : (Instr.classify 0xFFFF#16 0xFFFF#16).wf = true := by decide

theorem witness_WiderNumbersAreRefusedByName : 2 ^ 35 ≤ 0x800000000 ∧ 0x7FFFFFFFF < 2 ^ 35 := by decide

theorem witness_SameInputsGiveSameResult :
    State.reset.params = { State.reset with r := 0x7FC0#16 }.params ∧
    State.reset.op = { State.reset with r := 0x7FC0#16 }.op ∧
    State.reset.a = { State.reset with r := 0x7FC0#16 }.a ∧
    State.reset.b = { State.reset with r := 0x7FC0#16 }.b ∧
    State.reset ≠ { State.reset with r := 0x7FC0#16 } := by decide

/-- A state with these inputs and any old result. -/
def inputs (op : OpSel) (a b r : Word) : State :=
  { State.reset with op := op, a := a, b := b, r := r }

theorem witness_RepeatedRequestChangesNothing :
    step (inputs 2#3 0x4000#16 0x4040#16 0xFFFF#16) = .next (inputs 2#3 0x4000#16 0x4040#16 0x40C0#16) := rfl

/-- Steps whose next states meet the premises of the first clause of OutputLegal, for ADD and for SUB. -/
theorem witness_StepOutputIsLegal_denormal_sum :
    step (inputs 0#3 0x0020#16 0x0010#16 0#16) = .next (inputs 0#3 0x0020#16 0x0010#16 0x0030#16) ∧
    step (inputs 1#3 0x0020#16 0x8010#16 0#16) = .next (inputs 1#3 0x0020#16 0x8010#16 0x0030#16) ∧
    IsDenormal 0x0030#16 := ⟨rfl, rfl, by decide⟩

/-- Steps whose next states meet the premises of its sign and denormal clauses, for MUL and for DIV. -/
theorem witness_StepOutputIsLegal_sign :
    step (inputs 2#3 0x8000#16 0x3F80#16 0#16) = .next (inputs 2#3 0x8000#16 0x3F80#16 0x8000#16) ∧
    step (inputs 3#3 0x8000#16 0x3F80#16 0#16) = .next (inputs 3#3 0x8000#16 0x3F80#16 0x8000#16) ∧
    ¬ IsNaN 0x8000#16 := ⟨rfl, rfl, by decide⟩

/-- Steps whose next states meet the premises of its predicate and class clauses, at op 4, 6 and 7. -/
theorem witness_StepOutputIsLegal_codes :
    step (inputs 4#3 0x8000#16 0#16 0#16) = .next (inputs 4#3 0x8000#16 0#16 1#16) ∧
    step (inputs 6#3 0x8000#16 0#16 0#16) = .next (inputs 6#3 0x8000#16 0#16 0#16) ∧
    step (inputs 7#3 0x0001#16 0#16 0#16) = .next (inputs 7#3 0x0001#16 0#16 4#16) := ⟨rfl, rfl, rfl⟩

theorem witness_FieldPredicatesPartitionPatterns :
    IsZero 0x8000#16 ∧ IsDenormal 0x807F#16 ∧ IsNormal 0x0080#16 ∧ IsNormal 0x7F7F#16 ∧ IsInf 0xFF80#16 ∧
    IsNaN 0x7F81#16 := by decide

theorem witness_UnaryOperationsIgnoreB : 4 ≤ (inputs 4#3 0x8000#16 0#16 0#16).op.toNat := by decide

theorem witness_LeadingZeroCountLocatesTopBit : 1#32 ≠ 0#32 ∧ 0xFFFFFFFF#32 ≠ 0#32 := by decide

theorem witness_NormLeft8SetsBit7 : ∃ x y : Nat, x = 1 ∧ y = 0xFF ∧ 1 ≤ x ∧ x ≤ 0xFF ∧ 1 ≤ y ∧ y ≤ 0xFF :=
  ⟨1, 0xFF, by decide⟩

theorem witness_NormLeft16SetsBit15 :
    ∃ x y z : Nat, x = 1 ∧ y = 0xFFFF ∧ z = 0x80 ∧ 1 ≤ x ∧ x ≤ 0xFFFF ∧ 1 ≤ y ∧ y ≤ 0xFFFF ∧ 0x80 ≤ z ∧ z ≤ 0xFFFF :=
  ⟨1, 0xFFFF, 0x80, by decide⟩

theorem witness_RightShiftsTruncateToEightBits :
    ∃ x p q : Nat, x = 0x1FE ∧ p = 0x4000 ∧ q = 0xFE01 ∧ x ≤ 0x1FE ∧ 0x4000 ≤ p ∧ p ≤ 0xFE01 ∧ 0x4000 ≤ q ∧ q ≤ 0xFE01 :=
  ⟨0x1FE, 0x4000, 0xFE01, by decide⟩

theorem witness_ShiftLoopsAgreeWithCounts :
    ∃ (x q : Nat) (E : Int), x = 1 ∧ q = 0x80 ∧ E = 1 ∧ 1 ≤ x ∧ x ≤ 0xFF ∧ 1 ≤ E ∧ 0x80 ≤ q ∧ q ≤ 0xFFFF :=
  ⟨1, 0x80, 1, by decide⟩

/-- Its clauses on aligned operands, at exponent difference 8 and where a cancellation ends at exponent 1. -/
theorem witness_IntermediatesStayInRange_add :
    (IsFiniteNonzero 0x7F7F#16 ∧ IsFiniteNonzero 0x7B7F#16 ∧
      align 0x7F7F#16 0x7B7F#16 = .aligned 0xFF 0 254) ∧
    (IsFiniteNonzero 0x0100#16 ∧ IsFiniteNonzero 0x80C0#16 ∧
      align 0x0100#16 0x80C0#16 = .aligned 0x80 0x60 2) ∧
    (IsFiniteNonzero 0x0180#16 ∧ IsFiniteNonzero 0x8160#16 ∧
      align 0x0180#16 0x8160#16 = .aligned 0x80 0x70 3 ∧ cancelLoop 7 (0x80 - 0x60) 3 = some (0x80, 1)) := by decide

/-- Its multiplier clauses, at the smallest exponent and where a product has the exponents -6 and 0. -/
theorem witness_IntermediatesStayInRange_mul :
    (IsFiniteNonzero 0x0001#16 ∧ IsFiniteNonzero 0x8001#16 ∧
      mulExponentSum (mulPrepare 0x0001#16) (mulPrepare 0x8001#16) = -139) ∧
    (IsFiniteNonzero 0x3F80#16 ∧ mulExponentSum (mulPrepare 0x3F80#16) (mulPrepare 0x0001#16) +
      ((normProd ((mulPrepare 0x3F80#16).sig * (mulPrepare 0x0001#16).sig)).count : Int) = -6) ∧
    (IsFiniteNonzero 0x3F00#16 ∧ IsFiniteNonzero 0x0080#16 ∧
      mulExponentSum (mulPrepare 0x3F00#16) (mulPrepare 0x0080#16) +
        ((normProd ((mulPrepare 0x3F00#16).sig * (mulPrepare 0x0080#16).sig)).count : Int) = 0) := by decide

/-- Its divider clauses, at the ends of the iterations and where the exponent is 382 and -136. -/
theorem witness_IntermediatesStayInRange_div :
    (∃ x y i j : Nat, x = 0xFF ∧ y = 0x80 ∧ i = 16 ∧ j = 15 ∧ 1 ≤ x ∧ x ≤ 0xFF ∧ 1 ≤ y ∧ y ≤ 0xFF ∧ i ≤ 16 ∧ j ≤ 15 ∧
      0x80 ≤ x ∧ 0x80 ≤ y) ∧
    (IsFiniteNonzero 0x7F00#16 ∧ IsFiniteNonzero 0x0001#16 ∧
      divExponent { Params.default with divDenormAdj := .inverted } (dec 0x7F00#16).e (dec 0x0001#16).e = 382) ∧
    (IsFiniteNonzero 0x7F7F#16 ∧
      (quotientLoop 8 (restoringDivide 1 0xFF).q
        (divExponent { Params.default with divDenormAdj := .inverted } (dec 0x0001#16).e (dec 0x7F7F#16).e)).2 = -136) :=
  ⟨⟨0xFF, 0x80, 16, 15, by decide⟩, by decide, by decide⟩

theorem witness_AddNaNAndInfinityOperands :
    IsNaN 0x7F81#16 ∧
    (IsInf 0x7F80#16 ∧ IsNaN 0xFFFF#16) ∧
    (IsInf 0xFF80#16 ∧ IsInf 0xFF80#16 ∧ signOf 0xFF80#16 = signOf 0xFF80#16) ∧
    (IsInf 0x7F80#16 ∧ IsInf 0xFF80#16 ∧ signOf 0x7F80#16 ≠ signOf 0xFF80#16) ∧
    (IsInf 0xFF80#16 ∧ IsFinite 0x7F7F#16) ∧
    (IsFinite 0x7F7F#16 ∧ ¬ IsFinite 0x7F80#16) := by decide

theorem witness_AddZeroOperands :
    (IsZero 0x0000#16 ∧ IsZero 0x8000#16) ∧ (IsFiniteNonzero 0x0001#16 ∧ IsZero 0x8000#16) := by decide

theorem witness_AddEarlyExit :
    IsFiniteNonzero 0x4400#16 ∧ IsFiniteNonzero 0x3F80#16 ∧ expOf 0x3F80#16 + 8 < expOf 0x4400#16 ∧
    expOf 0x4400#16 = expOf 0x3F80#16 + 9 := by decide

theorem witness_AddSameSignsSum :
    (IsFiniteNonzero 0x4380#16 ∧ IsFiniteNonzero 0x3F80#16 ∧ expOf 0x4380#16 ≤ expOf 0x3F80#16 + 8 ∧
      expOf 0x3F80#16 ≤ expOf 0x4380#16 + 8 ∧ signOf 0x4380#16 = signOf 0x3F80#16 ∧
      expOf 0x4380#16 = expOf 0x3F80#16 + 8) ∧
    (IsFiniteNonzero 0xFF7F#16 ∧ expOf 0xFF7F#16 = 254) := by decide

theorem witness_AddOppositeSignsDifference :
    (IsFiniteNonzero 0x3F80#16 ∧ IsFiniteNonzero 0xC380#16 ∧ expOf 0x3F80#16 ≤ expOf 0xC380#16 + 8 ∧
      expOf 0xC380#16 ≤ expOf 0x3F80#16 + 8 ∧ signOf 0x3F80#16 ≠ signOf 0xC380#16 ∧
      expOf 0xC380#16 = expOf 0x3F80#16 + 8) ∧
    (IsFiniteNonzero 0x0020#16 ∧ IsFiniteNonzero 0x8010#16 ∧ signOf 0x0020#16 ≠ signOf 0x8010#16) := by decide

theorem witness_AddDenormalSumsKeepExponentZero :
    IsDenormal 0x0040#16 ∧ IsDenormal 0x007F#16 ∧ signOf 0x0040#16 = signOf 0x007F#16 := by decide

theorem witness_AddCommutesOnFinite :
    (IsFinite 0x7F7F#16 ∧ IsFinite 0x8001#16) ∧ (IsFinite 0x0000#16 ∧ IsFinite 0x8000#16) := by decide

theorem witness_AddNegationGivesZero :
    IsFiniteNonzero 0x0001#16 ∧ IsFiniteNonzero 0xFF7F#16 ∧ IsZero 0x8000#16 ∧ IsInf 0xFF80#16 ∧ IsNaN 0x7F81#16 := by
  decide

/-- Overflows that give a NaN and an infinity, and opposite infinities that give a NaN. -/
theorem witness_AddSpecialResultsHaveCauses :
    resultOf { Params.default with addOverflowResult := .canonicalNaN } 0x07F007F00 = some 0x7FC0#16 ∧
    resultOf Params.default 0x07F007F00 = some 0x7F80#16 ∧
    resultOf Params.default 0x07F80FF80 = some 0x7FC0#16 ∧
    IsNaN 0x7FC0#16 ∧ IsInf 0x7F80#16 := by decide

theorem witness_MulSpecialCases :
    IsNaN 0xFF81#16 ∧ (¬ IsNaN 0x0000#16 ∧ IsNaN 0xFFC1#16) ∧
    ((IsInf 0x7F80#16 ∧ IsZero 0x8000#16) ∨ (IsZero 0x7F80#16 ∧ IsInf 0x8000#16)) ∧
    (IsInf 0x7F80#16 ∧ ¬ IsNaN 0x0001#16 ∧ ¬ IsZero 0x0001#16) ∧
    (¬ IsNaN 0x7F7F#16 ∧ ¬ IsZero 0x7F7F#16 ∧ IsInf 0xFF80#16) ∧
    (IsFinite 0x8000#16 ∧ IsFinite 0x7F7F#16 ∧ (IsZero 0x8000#16 ∨ IsZero 0x7F7F#16)) := by decide

theorem witness_MulExponentDecidesResult :
    ∃ (sig : Nat) (hi lo low top : Int), sig = 0xFF ∧ hi = 255 ∧ lo = -7 ∧ low = -6 ∧ top = 0 ∧ sig ≤ 0xFF ∧
      255 ≤ hi ∧ lo < -6 ∧ -6 ≤ low ∧ low ≤ 0 ∧ -6 ≤ top ∧ top ≤ 0 ∧
      Params.default.mulSubnormalSource = .significand8 ∧
      { Params.default with mulSubnormalSource := .fraction7 }.mulSubnormalSource = .fraction7 :=
  ⟨0xFF, 255, -7, -6, 0, by decide⟩

theorem witness_MulFiniteProduct : IsFiniteNonzero 0x0001#16 ∧ IsFiniteNonzero 0xFF7F#16 := by decide

theorem witness_MulCommutes : ¬ IsNaN 0x7F80#16 ∧ ¬ IsNaN 0x8001#16 := by decide

theorem witness_MulByOneIsIdentity :
    State.reset.params.mulSubnormalSource = .significand8 ∧
    (State.resetFor { Params.default with mulSubnormalSource := .fraction7 }).params.mulSubnormalSource =
      .fraction7 := by decide

/-- The overflow clause at 2^128 exactly, and the truncation clause at the smallest denormal. -/
theorem witness_MulIsTruncatedExactProduct :
    (IsFinite 0x7F00#16 ∧ IsFinite 0x4000#16 ∧ 2 ^ 128 * 2 ^ 133 * 2 ^ 133 = scaledOf 0x7F00#16 * scaledOf 0x4000#16) ∧
    (IsFinite 0x3F80#16 ∧ IsFinite 0x0001#16 ∧ scaledOf 0x3F80#16 * scaledOf 0x0001#16 < 2 ^ 128 * 2 ^ 133 * 2 ^ 133) ∧
    State.reset.params.mulSubnormalSource = .significand8 := by decide

theorem witness_DivSpecialCases :
    ((IsInf 0x7F80#16 ∧ IsInf 0xFF80#16) ∧ (IsZero 0x0000#16 ∧ IsZero 0x8000#16) ∧
      (IsInf 0x7F80#16 ∧ IsFinite 0x0000#16) ∧ (IsFinite 0x8000#16 ∧ IsInf 0x7F80#16) ∧
      (IsFiniteNonzero 0x0001#16 ∧ IsZero 0x8000#16) ∧ (IsZero 0x8000#16 ∧ IsFiniteNonzero 0x7F7F#16)) ∧
    (¬ IsNaN 0x7F80#16 ∧ ¬ IsNaN 0x0000#16) ∧
    (State.reset.params.divSpecialOrder = .naNFirst ∧ IsNaN 0x7FC1#16 ∧ ¬ IsNaN 0x7F80#16 ∧ IsNaN 0x7F81#16) ∧
    ((State.resetFor { Params.default with divSpecialOrder := .divisorFirst }).params.divSpecialOrder = .divisorFirst ∧
      IsNaN 0x7FC2#16 ∧ IsInf 0x7F80#16 ∧ IsZero 0x0000#16 ∧ IsFiniteNonzero 0x3F80#16) := by decide

theorem witness_RestoringDivisionIsSaturatingFloor :
    ∃ x y : Nat, x = 0xFF ∧ y = 0x80 ∧ 1 ≤ x ∧ x ≤ 0xFF ∧ 1 ≤ y ∧ y ≤ 0xFF ∧ x < 2 * y :=
  ⟨0xFF, 0x80, by decide⟩

theorem witness_DivExponentDecidesResult : ∃ hi lo : Int, hi = 255 ∧ lo = 0 ∧ 255 ≤ hi ∧ lo ≤ 0 :=
  ⟨255, 0, by decide⟩

theorem witness_DivExponentFollowsInstance :
    Params.default.divDenormAdj = .valueCorrect ∧
    { Params.default with divDenormAdj := .inverted }.divDenormAdj = .inverted ∧
    (dec 0x0001#16).e = 0#8 ∧ (dec 0x807F#16).e = 0#8 := by decide

theorem witness_DivFiniteQuotient : IsFiniteNonzero 0x0001#16 ∧ IsFiniteNonzero 0xFF7F#16 := by decide

theorem witness_DivBySelfIsOne : IsFiniteNonzero 0x0001#16 ∧ IsFiniteNonzero 0xFF7F#16 := by decide

theorem witness_DivByOneIsIdentityOnNormals :
    IsNormal 0x0080#16 ∧ IsNormal 0xFF7F#16 ∧ IsDenormal 0x007F#16 := by decide

theorem witness_DivNaNClosureDependsOnOrder :
    (State.reset.params.divSpecialOrder = .naNFirst ∧ IsNaN 0x7F81#16) ∧
    ((State.resetFor { Params.default with divSpecialOrder := .divisorFirst }).params.divSpecialOrder = .divisorFirst ∧
      IsNaN 0x7FC1#16 ∧ IsInf 0x7F80#16 ∧ IsZero 0x0000#16) ∧
    (¬ IsNaN 0x7F80#16 ∧ ¬ IsNaN 0xFF80#16) := by decide

/-- The infinity clause at 2^128 exactly, the zero clause at half the smallest normal, and the normal clause at the
smallest normal exactly. -/
theorem witness_DivIsTruncatedExactQuotient :
    (IsFiniteNonzero 0x7F00#16 ∧ IsFiniteNonzero 0x3F00#16 ∧ sigOf 0x7F00#16 < 2 * sigOf 0x3F00#16 ∧
      scaledOf 0x3F00#16 * (2 ^ 128 * 2 ^ 133) = scaledOf 0x7F00#16 * 2 ^ 133) ∧
    (IsFiniteNonzero 0x0080#16 ∧ IsFiniteNonzero 0x4000#16 ∧ sigOf 0x0080#16 < 2 * sigOf 0x4000#16 ∧
      scaledOf 0x0080#16 * 2 ^ 133 < scaledOf 0x4000#16 * 2 ^ 7) ∧
    (IsFiniteNonzero 0x0100#16 ∧ sigOf 0x0100#16 < 2 * sigOf 0x4000#16 ∧
      scaledOf 0x4000#16 * 2 ^ 7 = scaledOf 0x0100#16 * 2 ^ 133 ∧
      scaledOf 0x0100#16 * 2 ^ 133 < scaledOf 0x4000#16 * (2 ^ 128 * 2 ^ 133)) ∧
    State.reset.params.divDenormAdj = .valueCorrect := by decide

theorem witness_NumericValueOfPattern : IsFinite 0x0001#16 ∧ IsInf 0xFF80#16 ∧ IsNaN 0x7F81#16 := by decide

theorem witness_WellFormedLinesAssembleAndRun :
    assemble [0x3F80#16] (.mul (.result 1) (.pattern 0x4000#16)) = .ok (.mul 0x3F80#16 0x4000#16) ∧
    (Line.mul (.result 1) (.pattern 0x4000#16)).wf 2 = true ∧
    (Line.mul (.result 2) (.pattern 0x4000#16)).wf 2 = false := by decide

/-- The first and the last line held, and a pattern with nothing held. -/
theorem witness_WellFormedLinesAssembleAndRun_operands :
    OperandIs [0x3F80#16, 0x4000#16] (.result 1) 0x3F80#16 ∧
    OperandIs [0x3F80#16, 0x4000#16] (.result 2) 0x4000#16 ∧
    OperandIs [] (.pattern 0x7FC0#16) 0x7FC0#16 :=
  ⟨⟨by decide, rfl⟩, ⟨by decide, rfl⟩, rfl⟩

end Sys2Proof.Tests
end

section
/-! The result of a request is a function of the instance's parameters and the input ports (10_state.md R16). -/

namespace Sys2Proof.Proofs

open Sys2Proof.Machine Sys2Proof.Laws

/-- Under given parameters a request has one result, which every state answers: a meaning reads no port of the state,
`r` included (R16). -/
theorem exec_answers_of_params (p : Params) (i : Instr) :
    ∃ v : Word, ∀ s : State, s.params = p → exec i s = answer v s := by
  cases i with
  | add a b => exact ⟨adder p a b false, by rintro s rfl; exact exec_add a b s⟩
  | sub a b => exact ⟨adder p a b true, by rintro s rfl; exact exec_sub a b s⟩
  | mul a b => exact ⟨multiplier p a b, by rintro s rfl; exact exec_mul a b s⟩
  | div a b => exact ⟨divider p a b, by rintro s rfl; exact exec_div a b s⟩
  | iszero a b => exact ⟨_, fun s _ => exec_iszero a b s⟩
  | isnan a b => exact ⟨_, fun s _ => exec_isnan a b s⟩
  | isinf a b => exact ⟨_, fun s _ => exec_isinf a b s⟩
  | classify a b => exact ⟨_, fun s _ => exec_classify a b s⟩

/-- Under given parameters and inputs there is one result, which every state that has them answers in a step. -/
theorem step_answers_of_inputs (p : Params) (op : OpSel) (a b : Word) :
    ∃ v : Word, ∀ s : State, s.params = p → s.op = op → s.a = a → s.b = b → step s = answer v s := by
  obtain ⟨v, hexec⟩ := exec_answers_of_params p (decodeFields op a b)
  refine ⟨v, fun s hp hop ha hb => ?_⟩
  have hfetch : fetch s = decodeFields op a b := by rw [fetch_eq, hop, ha, hb]
  rw [step, hfetch, hexec s hp]

/-- Settles O7: both states answer the one result of their common parameters and inputs. -/
theorem sameInputsGiveSameResult : Obligations.SameInputsGiveSameResult := by
  intro s s' hp hop ha hb
  obtain ⟨v, hstep⟩ := step_answers_of_inputs s'.params s'.op s'.a s'.b
  exact ⟨driveResult v s, driveResult v s', hstep s hp hop ha hb, hstep s' rfl rfl rfl rfl, rfl⟩

end Sys2Proof.Proofs
end

section
/-! The request numbers of R41 run through the operation map of R42 (30_encoding.md), `b` read by no unary row (R46). -/

namespace Sys2Proof.Proofs

open Sys2Proof.Machine Sys2Proof.Laws

/-- R41's formula on numbers is the packing of the three ports. -/
theorem requestNumber_eq_packRequest_toNat (op : OpSel) (a b : Word) :
    (op.toNat <<< 32) ||| (a.toNat <<< 16) ||| b.toNat = (packRequest op a b).toNat := by
  have hwf : (RawRequest.mk op.toNat a.toNat b.toNat).wf = true := by
    have := op.isLt
    have := a.isLt
    have := b.isLt
    simp only [RawRequest.wf, Bool.and_eq_true, decide_eq_true_eq]
    omega
  calc (op.toNat <<< 32) ||| (a.toNat <<< 16) ||| b.toNat
      = op.toNat * 2 ^ 32 + a.toNat * 2 ^ 16 + b.toNat := by
        simpa only [RawRequest.word] using rawRequest_word_eq hwf
    _ = (packRequest op a b).toNat := (packRequest_toNat op a b).symm

theorem decode_packRequest (op : OpSel) (a b : Word) :
    decode (packRequest op a b) = decodeFields op a b := by
  simp [decode]

/-- No number of a 35-bit word is refused (R42). -/
theorem decodeNumber_toNat (w : RequestWord) : decodeNumber w.toNat = .ok (decode w) := by
  rw [decodeNumber, if_pos w.isLt, BitVec.ofNat_toNat, BitVec.setWidth_eq]

/-- The request number of R41 decodes by the operation map of R42. -/
theorem decodeNumber_requestNumber (op : OpSel) (a b : Word) :
    decodeNumber ((op.toNat <<< 32) ||| (a.toNat <<< 16) ||| b.toNat) = .ok (decodeFields op a b) := by
  rw [requestNumber_eq_packRequest_toNat, decodeNumber_toNat, decode_packRequest]

/-- Every 35-bit word is the request number of its own three fields. -/
theorem toNat_eq_requestNumber (w : RequestWord) :
    w.toNat = ((w.extractLsb' 32 3).toNat <<< 32) ||| ((w.extractLsb' 16 16).toNat <<< 16) |||
      (w.extractLsb' 0 16).toNat := by
  rw [requestNumber_eq_packRequest_toNat, packRequest_fields]

/-- Settles O3: `decodeNumber_requestNumber` at each row of the map, and a word's own fields. -/
theorem decodeFollowsOperationMap : Obligations.DecodeFollowsOperationMap := by
  constructor
  · intro a b
    exact ⟨decodeNumber_requestNumber 0#3 a b, decodeNumber_requestNumber 1#3 a b,
      decodeNumber_requestNumber 2#3 a b, decodeNumber_requestNumber 3#3 a b,
      decodeNumber_requestNumber 4#3 a b, decodeNumber_requestNumber 5#3 a b,
      decodeNumber_requestNumber 6#3 a b, decodeNumber_requestNumber 7#3 a b⟩
  · intro w
    exact ⟨_, _, _, (w.extractLsb' 32 3).isLt, toNat_eq_requestNumber w⟩

theorem opSel_unary_cases {op : OpSel} (h : 4 ≤ op.toNat) :
    op = 4#3 ∨ op = 5#3 ∨ op = 6#3 ∨ op = 7#3 := by
  bv_omega

/-- The four unary rows of the operation map: one result for `a`, whatever `b` and the state are (R46). -/
theorem exec_decodeFields_unary {op : OpSel} (h : 4 ≤ op.toNat) (a : Word) :
    ∃ v : Word, ∀ (b : Word) (s : State), exec (decodeFields op a b) s = answer v s := by
  obtain rfl | rfl | rfl | rfl := opSel_unary_cases h
  · exact ⟨_, fun b s => exec_iszero a b s⟩
  · exact ⟨_, fun b s => exec_isnan a b s⟩
  · exact ⟨_, fun b s => exec_isinf a b s⟩
  · exact ⟨_, fun b s => exec_classify a b s⟩

theorem step_eq_exec_decodeFields (s : State) : step s = exec (decodeFields s.op s.a s.b) s := by
  rw [step, fetch_eq]

/-- Settles O21: both steps run the same unary row on the same `a`. -/
theorem unaryOperationsIgnoreB : Obligations.UnaryOperationsIgnoreB := by
  intro s b' hop
  obtain ⟨v, hexec⟩ := exec_decodeFields_unary hop s.a
  refine ⟨v, ?_, ?_⟩
  · rw [step_eq_exec_decodeFields, hexec]
    rfl
  · rw [step_eq_exec_decodeFields, hexec]
    rfl

end Sys2Proof.Proofs
end

section
/-! The field predicates, the special patterns and the unary operations of 40_classifier.md (R53, R55, R57 to R60). -/

namespace Sys2Proof.Proofs

open Sys2Proof.Machine Sys2Proof.Laws

/-! ### The field predicates (R53) -/

/-- The five predicates of some fields, in the order of R53. -/
def fieldPredicates (f : Fields) : List Bool :=
  [isZeroF f, isDenF f, isNormF f, isInfF f, isNaNF f]

theorem fieldPredicates_of_zero_exponent {f : Fields} (he : f.e = 0#8) :
    fieldPredicates f = [decide (f.m = 0#7), !decide (f.m = 0#7), false, false, false] := by
  simp [fieldPredicates, isZeroF, isDenF, isNormF, isInfF, isNaNF, he]

theorem fieldPredicates_of_max_exponent {f : Fields} (he : f.e = 255#8) :
    fieldPredicates f = [false, false, false, decide (f.m = 0#7), !decide (f.m = 0#7)] := by
  simp [fieldPredicates, isZeroF, isDenF, isNormF, isInfF, isNaNF, he]

theorem fieldPredicates_of_inner_exponent {f : Fields} (h0 : f.e ≠ 0#8) (hmax : f.e ≠ 255#8) :
    fieldPredicates f = [false, false, true, false, false] := by
  have hlow : 1 ≤ f.e.toNat := by bv_omega
  have hhigh : f.e.toNat ≤ 254 := by bv_omega
  simp [fieldPredicates, isZeroF, isDenF, isNormF, isInfF, isNaNF, h0, hmax, hlow, hhigh]

/-- An end of the exponent range leaves two predicates, told apart by the mantissa; its inside leaves one. -/
theorem fieldPredicates_count_true (f : Fields) : (fieldPredicates f).count true = 1 := by
  by_cases h0 : f.e = 0#8
  · rw [fieldPredicates_of_zero_exponent h0]
    cases decide (f.m = 0#7) <;> rfl
  · by_cases hmax : f.e = 255#8
    · rw [fieldPredicates_of_max_exponent hmax]
      cases decide (f.m = 0#7) <;> rfl
    · rw [fieldPredicates_of_inner_exponent h0 hmax]
      rfl

theorem isFinite_iff_zero_or_denormal_or_normal (v : Word) :
    IsFinite v ↔ IsZero v ∨ IsDenormal v ∨ IsNormal v := by
  unfold IsFinite IsZero IsDenormal IsNormal
  omega

/-- Settles O13: each predicate by its law on `dec`, and the count by the exponent's three ranges. -/
theorem fieldPredicatesPartitionPatterns : Obligations.FieldPredicatesPartitionPatterns := by
  refine ⟨fun v => ⟨?zero, ?denormal, ?normal, ?infinity, ?nan,
    isFinite_iff_zero_or_denormal_or_normal v⟩, fieldPredicates_count_true⟩
  case zero => rw [isZeroF_dec, decide_eq_true_iff]
  case denormal => rw [isDenF_dec, decide_eq_true_iff]
  case normal => rw [isNormF_dec, decide_eq_true_iff]
  case infinity => rw [isInfF_dec, decide_eq_true_iff]
  case nan => rw [isNaNF_dec, decide_eq_true_iff]

/-! ### The unary operations (R57 to R60) -/

/-- The `op` field of an encoded request is its row of the operation map (R41, R42). -/
theorem encode_op (i : Instr) : (encode i).extractLsb' 32 3 = i.opSel :=
  packRequest_op i.opSel i.operandA i.operandB

/-- The sign does not count for the zeros: the other 15 bits are the exponent and the mantissa (R57). -/
theorem isZero_iff_and_eq_zero (v : Word) : IsZero v ↔ v &&& 0x7FFF#16 = 0#16 := by
  have hmask : (v &&& 0x7FFF#16).toNat = v.toNat % 32768 := by
    rw [BitVec.toNat_and]
    exact Nat.and_two_pow_sub_one_eq_mod v.toNat 15
  rw [← BitVec.toNat_inj, hmask]
  simp only [IsZero, expOf, fracOf, BitVec.toNat_ofNat]
  omega

/-- What a predicate operation does: it drives 1 or 0 and changes nothing else (R47, R35). -/
theorem answer_boolResult_decide (P : Prop) [Decidable P] (s : State) :
    answer (boolResult (decide P)) s = .next { s with r := if P then 0x0001#16 else 0x0000#16 } := by
  rw [answer_eq_next_iff]
  simp only [boolResult, decide_eq_true_eq]

/-- Settles O16: the answer is `isZeroF` of the decomposed `a`, and the mask form is `isZero_iff_and_eq_zero`. -/
theorem isZeroDrivesOneForZeros : Obligations.IsZeroDrivesOneForZeros := by
  intro a b s
  refine ⟨?_, isZero_iff_and_eq_zero a, encode_op _⟩
  rw [exec_iszero, isZeroF_dec, answer_boolResult_decide]

/-- Settles O17: the answer is `isNaNF` of the decomposed `a`. -/
theorem isNaNDrivesOneForNaNs : Obligations.IsNaNDrivesOneForNaNs := by
  intro a b s
  refine ⟨?_, encode_op _⟩
  rw [exec_isnan, isNaNF_dec, answer_boolResult_decide]

/-- Settles O18: the answer is `isInfF` of the decomposed `a`. -/
theorem isInfDrivesOneForInfinities : Obligations.IsInfDrivesOneForInfinities := by
  intro a b s
  refine ⟨?_, encode_op _⟩
  rw [exec_isinf, isInfF_dec, answer_boolResult_decide]

theorem classOf_dec (v : Word) :
    classOf (dec v) =
      if IsZero v then .zero
      else if IsInf v then .infinity
      else if IsNaN v then .nan
      else if IsNormal v then .normal
      else .denormal := by
  simp only [classOf, isZeroF_dec, isInfF_dec, isNaNF_dec, isNormF_dec, decide_eq_true_eq]

/-- The zero-extended class code of a pattern (R60). -/
theorem classCode_setWidth_classOf_dec (v : Word) :
    (classCode (classOf (dec v))).setWidth 16 = classReference v := by
  rw [classOf_dec, classReference]
  split_ifs <;> rfl

/-- Settles O19: the code is that of the class the tests of R60 find, which is at most 4 in `classReference`. -/
theorem classDrivesClassCode : Obligations.ClassDrivesClassCode := by
  intro a b s
  refine ⟨?_, encode_op _⟩
  rw [exec_classify, classCode_setWidth_classOf_dec, answer_eq_next_iff]

/-! ### The special patterns (R55) -/

theorem signedZero_eq_shiftLeft (s : BitVec 1) : signedZero s = s.setWidth 16 <<< 15 := by
  obtain rfl | rfl : s = 0#1 ∨ s = 1#1 := by bv_omega
  · rfl
  · rfl

theorem signedInf_eq_shiftLeft_or (s : BitVec 1) :
    signedInf s = (s.setWidth 16 <<< 15) ||| 0x7F80#16 := by
  obtain rfl | rfl : s = 0#1 ∨ s = 1#1 := by bv_omega
  · rfl
  · rfl

/-- Settles O15: the two constants are literals, and the signed ones agree with their shifts at both signs. -/
theorem specialPatternsAsNamed : Obligations.SpecialPatternsAsNamed :=
  ⟨rfl, rfl, fun s => ⟨rfl, signedZero_eq_shiftLeft s, rfl, signedInf_eq_shiftLeft_or s⟩⟩

end Sys2Proof.Proofs
end

section
/-! The leading-zero count and the left shift into the 8-bit window of 41_normalizer.md (R62, R63). The count is said
once with `Nat.size`, the number of bits of a value without its leading zeros. -/

namespace Sys2Proof.Proofs

open Sys2Proof.Machine Sys2Proof.Laws

/-! ### The leading-zero count (R62) -/

theorem size_eq_succ_of_two_pow_le {n i : Nat} (hlow : 2 ^ i ≤ n) (hhigh : n < 2 ^ (i + 1)) :
    n.size = i + 1 :=
  Nat.le_antisymm (Nat.size_le.mpr hhigh) (Nat.lt_size.mpr hlow)

/-- With `i` bits still to be looked at and none set above them, the loop adds the zeros above the top bit. -/
theorem clzLoop_eq_add_sub_size {x : BitVec 32} {i : Nat} (n : Nat) (hx : x.toNat < 2 ^ i) :
    clzLoop x i n = n + (i - x.toNat.size) := by
  induction i generalizing n with
  | zero => simp [clzLoop]
  | succ i ih =>
    have hbit : x.getLsbD i = decide (2 ^ i ≤ x.toNat) := testBit_top hx
    by_cases htop : 2 ^ i ≤ x.toNat
    · have hsize : x.toNat.size = i + 1 := size_eq_succ_of_two_pow_le htop hx
      simp [clzLoop, hbit, htop, hsize]
    · have hrest : x.toNat < 2 ^ i := Nat.lt_of_not_le htop
      have hsize : x.toNat.size ≤ i := Nat.size_le.mpr hrest
      simp only [clzLoop, hbit, htop, decide_false, Bool.false_eq_true, if_false, ih (n + 1) hrest]
      omega

/-- The spec of `clz32`, zero included: 32 less the number of bits. -/
theorem clz32_eq_sub_size (x : BitVec 32) : clz32 x = 32 - x.toNat.size := by
  by_cases hx : x = 0#32
  · simp [clz32, hx]
  · rw [clz32, if_neg hx, clzWidth, clzLoop_eq_add_sub_size 0 x.isLt, Nat.zero_add]

theorem clz32_add_size (x : BitVec 32) : clz32 x + x.toNat.size = 32 := by
  have hsize : x.toNat.size ≤ 32 := Nat.size_le.mpr x.isLt
  rw [clz32_eq_sub_size]
  omega

theorem clz32_le (x : BitVec 32) : clz32 x ≤ 32 := by
  rw [clz32_eq_sub_size]
  exact Nat.sub_le _ _

/-- The 6-bit port has room for every count. -/
theorem normalizer_toNat (x : BitVec 32) : (normalizer x).toNat = clz32 x := by
  have hle : clz32 x ≤ 32 := clz32_le x
  rw [normalizer, BitVec.toNat_ofNat, Nat.mod_eq_of_lt (by omega)]

/-- A nonzero value lies between the two powers of two that its size names. -/
theorem two_pow_size_bounds {n : Nat} (hn : 0 < n) : 2 ^ (n.size - 1) ≤ n ∧ n < 2 ^ n.size := by
  have hpos : 0 < n.size := Nat.size_pos.mpr hn
  exact ⟨Nat.lt_size.mp (by omega), Nat.lt_size_self n⟩

/-- Settles O22: the count is 32 less the size (`clz32_add_size`), so the bounds on `x` are those of its size. -/
theorem leadingZeroCountLocatesTopBit : Obligations.LeadingZeroCountLocatesTopBit := by
  refine ⟨rfl, fun x hx => ?_, normalizer_toNat⟩
  have hpos : 0 < x.toNat := by bv_omega
  have hsize : 0 < x.toNat.size := Nat.size_pos.mpr hpos
  have hsum : clz32 x + x.toNat.size = 32 := clz32_add_size x
  have hlow : 31 - clz32 x = x.toNat.size - 1 := by omega
  have hhigh : 32 - clz32 x = x.toNat.size := by omega
  rw [hlow, hhigh]
  exact ⟨by omega, two_pow_size_bounds hpos⟩

/-! ### The left shift into a window (R63) -/

/-- Shifting the top bit of a nonzero value to bit `w` fills the window of `w + 1` bits. -/
theorem mul_two_pow_sub_size_bounds {n w : Nat} (hn : 0 < n) (hw : n < 2 ^ (w + 1)) :
    2 ^ w ≤ n * 2 ^ (w + 1 - n.size) ∧ n * 2 ^ (w + 1 - n.size) < 2 ^ (w + 1) := by
  have hpos : 0 < n.size := Nat.size_pos.mpr hn
  have hsize : n.size ≤ w + 1 := Nat.size_le.mpr hw
  obtain ⟨hlow, hhigh⟩ := two_pow_size_bounds hn
  constructor
  · calc 2 ^ w = 2 ^ (n.size - 1) * 2 ^ (w + 1 - n.size) := by rw [← Nat.pow_add]; congr 1; omega
      _ ≤ n * 2 ^ (w + 1 - n.size) := Nat.mul_le_mul_right _ hlow
  · calc n * 2 ^ (w + 1 - n.size) < 2 ^ n.size * 2 ^ (w + 1 - n.size) :=
          Nat.mul_lt_mul_of_pos_right hhigh (Nat.two_pow_pos _)
      _ = 2 ^ (w + 1) := by rw [← Nat.pow_add, Nat.add_sub_cancel' hsize]

theorem clz32_ofNat_add_size {n : Nat} (hn : n < 2 ^ 32) : clz32 (BitVec.ofNat 32 n) + n.size = 32 := by
  have h := clz32_add_size (BitVec.ofNat 32 n)
  rwa [BitVec.toNat_ofNat, Nat.mod_eq_of_lt hn] at h

theorem normLeft8_value (x : Nat) : (normLeft8 x).value = x * 2 ^ (normLeft8 x).count :=
  Nat.shiftLeft_eq _ _

/-- Settles O23: the count is 8 less the size, and that shift fills the window of 8 bits. -/
theorem normLeft8SetsBit7 : Obligations.NormLeft8SetsBit7 := by
  intro x hlow hhigh
  have hpos : 0 < x.size := Nat.size_pos.mpr hlow
  have hsize : x.size ≤ 8 := Nat.size_le.mpr (by omega)
  have hclz : clz32 (BitVec.ofNat 32 x) + x.size = 32 := clz32_ofNat_add_size (by omega)
  have hcount : (normLeft8 x).count = 7 + 1 - x.size := by
    simp only [normLeft8]
    omega
  obtain ⟨hbit7, hwindow⟩ := mul_two_pow_sub_size_bounds (w := 7) hlow (by omega)
  refine ⟨?_, ?_, normLeft8_value x, ?_, ?_⟩
  · omega
  · omega
  · rw [normLeft8_value, hcount]
    exact hbit7
  · rw [normLeft8_value, hcount]
    exact Nat.le_of_lt_succ hwindow

end Sys2Proof.Proofs
end

section
/-! The adder of 42_adder.md up to its finite arithmetic: NaN and infinity operands (R70), zeros (R71), and SUB (R82). -/

namespace Sys2Proof.Proofs

open Sys2Proof.Machine Sys2Proof.Laws

/-! ### The three places where ADD ends (R81) -/

theorem exec_add_of_nanInf {a b v : Word} (h : addNaNInf a b = some v) (s : State) :
    exec (.add a b) s = .next { s with r := v } := by
  simp [exec_add, answer_eq_next_iff, adder, h]

theorem exec_add_of_zero {a b v : Word} (hnum : addNaNInf a b = none) (h : addZero a b = some v)
    (s : State) : exec (.add a b) s = .next { s with r := v } := by
  simp [exec_add, answer_eq_next_iff, adder, hnum, h]

theorem exec_add_of_finite {a b : Word} (hnum : addNaNInf a b = none) (h : addZero a b = none)
    (s : State) : exec (.add a b) s = .next { s with r := addFinite s.params a b } := by
  simp [exec_add, answer_eq_next_iff, adder, hnum, h]

/-! ### NaN and infinity operands (R70) -/

theorem addNaNInf_of_finite {a b : Word} (ha : IsFinite a) (hb : IsFinite b) : addNaNInf a b = none := by
  rw [addNaNInf_eq, if_neg (Nat.ne_of_lt ha), if_neg (Nat.ne_of_lt hb)]

theorem addNaNInf_of_nan_left {a : Word} (b : Word) (ha : IsNaN a) : addNaNInf a b = some a := by
  rw [addNaNInf_eq, if_pos ha.1, if_pos ha.2]

/-- An infinite first operand leaves the second to decide. -/
theorem addNaNInf_of_inf_left {a : Word} (b : Word) (ha : IsInf a) :
    addNaNInf a b =
      if expOf b = 255 then
        if fracOf b ≠ 0 then some b else if signOf a = signOf b then some a else some 0x7FC0#16
      else some a := by
  rw [addNaNInf_eq, if_pos ha.1, if_neg (not_not_intro ha.2)]

theorem expOf_eq_of_not_finite {v : Word} (h : ¬ IsFinite v) : expOf v = 255 :=
  Nat.le_antisymm (expOf_le v) (Nat.le_of_not_lt h)

theorem addNaNInf_of_finite_left {a b : Word} (ha : IsFinite a) (hb : ¬ IsFinite b) :
    addNaNInf a b = some b := by
  rw [addNaNInf_eq, if_neg (Nat.ne_of_lt ha), if_pos (expOf_eq_of_not_finite hb)]

/-- Settles O28: each outcome is a branch of `addNaNInf`, which the adder tests first. -/
theorem addNaNAndInfinityOperands : Obligations.AddNaNAndInfinityOperands := by
  intro a b s
  refine ⟨fun ha => ?nan, fun ha hb => ?infNaN, fun ha hb hs => ?infInf, fun ha hb hs => ?infNegInf,
    fun ha hb => ?infFinite, fun ha hb => ?finite⟩ <;> apply exec_add_of_nanInf
  case nan => exact addNaNInf_of_nan_left b ha
  case infNaN => rw [addNaNInf_of_inf_left b ha, if_pos hb.1, if_pos hb.2]
  case infInf => rw [addNaNInf_of_inf_left b ha, if_pos hb.1, if_neg (not_not_intro hb.2), if_pos hs]
  case infNegInf => rw [addNaNInf_of_inf_left b ha, if_pos hb.1, if_neg (not_not_intro hb.2), if_neg hs]
  case infFinite => rw [addNaNInf_of_inf_left b ha, if_neg (Nat.ne_of_lt hb)]
  case finite => exact addNaNInf_of_finite_left ha hb

/-! ### Zero operands (R71) -/

theorem isFinite_of_isZero {v : Word} (h : IsZero v) : IsFinite v := by
  unfold IsFinite
  omega

/-- A zero first operand gives the second, through R71 or, where that is a NaN or an infinity, already through R70. -/
theorem exec_add_of_isZero_left {a : Word} (b : Word) (s : State) (ha : IsZero a) :
    exec (.add a b) s = .next { s with r := b } := by
  have hfin : IsFinite a := isFinite_of_isZero ha
  by_cases hb : IsFinite b
  · exact exec_add_of_zero (addNaNInf_of_finite hfin hb) (by rw [addZero_eq, if_pos ha]) s
  · exact exec_add_of_nanInf (addNaNInf_of_finite_left hfin hb) s

theorem exec_add_of_isZero_right {a b : Word} (s : State) (ha : IsFiniteNonzero a) (hb : IsZero b) :
    exec (.add a b) s = .next { s with r := a } :=
  exec_add_of_zero (addNaNInf_of_finite ha.1 (isFinite_of_isZero hb))
    (by rw [addZero_eq, if_neg ha.2, if_pos hb]) s

/-- Settles O29: a zero on the left, then a zero on the right of a finite nonzero pattern. -/
theorem addZeroOperands : Obligations.AddZeroOperands :=
  fun _ b s => ⟨exec_add_of_isZero_left b s, exec_add_of_isZero_right s⟩

/-- What passes R70 and R71: two finite nonzero operands reach the finite arithmetic (R72). -/
theorem exec_add_of_isFiniteNonzero {a b : Word} (s : State) (ha : IsFiniteNonzero a)
    (hb : IsFiniteNonzero b) : exec (.add a b) s = .next { s with r := addFinite s.params a b } :=
  exec_add_of_finite (addNaNInf_of_finite ha.1 hb.1) (by rw [addZero_eq, if_neg ha.2, if_neg hb.2]) s

/-! ### SUB (R82) -/

/-- The `negB` input of the adder flips the sign of `b` ahead of every test (R45). -/
theorem adder_negB (p : Params) (a b : Word) : adder p a b true = adder p a (flipSign b) false := rfl

/-- Settles O34: both requests answer the adder's result on `a` and the flipped `b`. -/
theorem subAddsSignFlippedOperand : Obligations.SubAddsSignFlippedOperand := by
  intro a b s
  refine ⟨⟨adder s.params a (flipSign b) false, ?_, ?_⟩, encode_op _⟩
  · rw [exec_sub, adder_negB, answer_eq_next_iff]
  · rw [exec_add, answer_eq_next_iff, flipSign]

end Sys2Proof.Proofs
end

section
/-! The adder's finite arithmetic (42_adder.md R72 to R80) without its loop: sums and differences of significands
aligned to the larger exponent. -/

namespace Sys2Proof.Proofs

open Sys2Proof.Machine Sys2Proof.Laws

/-! ### Alignment (R73) -/

/-- Within the exponent difference of 8 both significands are aligned, and the signs choose the path (R74, R76). -/
theorem addFinite_of_close (p : Params) {a b : Word} {e : Nat} (he : e = max (expOf a) (expOf b))
    (hab : expOf a ≤ expOf b + 8) (hba : expOf b ≤ expOf a + 8) :
    addFinite p a b =
      if signOf a = signOf b then addSameSign p (dec a).s (alignedSig a e) (alignedSig b e) e
      else addOppositeSign p (dec a).s (dec b).s (alignedSig a e) (alignedSig b e) e := by
  simp only [addFinite, align_eq, if_neg (Nat.not_lt_of_le hab), if_neg (Nat.not_lt_of_le hba),
    dec_s_eq_iff, he]

theorem alignedSig_lt (v : Word) (e : Nat) : alignedSig v e < 256 :=
  Nat.lt_succ_of_le ((Nat.div_le_self _ _).trans (sigOf_le v))

/-- A denormal's significand has no bit 7, aligned or not. -/
theorem alignedSig_lt_of_expOf_eq_zero {v : Word} (e : Nat) (h : expOf v = 0) : alignedSig v e < 128 := by
  have hfrac : sigOf v ≤ 127 := by simpa [sigOf, h] using fracOf_le v
  exact Nat.lt_succ_of_le ((Nat.div_le_self _ _).trans hfrac)

/-! ### Same signs (R74, R75) -/

/-- The one right shift of R65, as a halving. -/
theorem normRight9_eq {x : Nat} (hx : x < 512) :
    normRight9 x = if x < 256 then ⟨0, x⟩ else ⟨1, x / 2⟩ := by
  have hbit : x.testBit 8 = decide (256 ≤ x) := testBit_top hx
  by_cases hsmall : x < 256
  · simp [normRight9, hbit, hsmall]
  · simp [normRight9, hbit, hsmall, Nat.le_of_not_lt hsmall, Nat.shiftRight_eq_div_pow]

theorem addOverflow_eq (p : Params) (rs : BitVec 1) :
    addOverflow p rs = if p.addOverflowResult = .signedInfinity then infOf rs.toNat else 0x7FC0#16 := by
  cases h : p.addOverflowResult with
  | signedInfinity => simp [addOverflow, h, signedInf_eq]
  | canonicalNaN => simp [addOverflow, h, canonNaN]

/-- The sum of two aligned significands: it fits the window, or is halved into it, or overflows. -/
theorem addSameSign_eq (p : Params) (rs : BitVec 1) {x y e : Nat} (hx : x < 256) (hy : y < 256)
    (he : e < 255) :
    addSameSign p rs x y e =
      if x + y < 256 then packed rs.toNat e ((x + y) % 128)
      else if e + 1 < 255 then packed rs.toNat (e + 1) ((x + y) / 2 % 128)
      else if p.addOverflowResult = .signedInfinity then infOf rs.toNat
      else 0x7FC0#16 := by
  rw [addSameSign, normRight9_eq (by omega)]
  by_cases hfits : x + y < 256
  · simp [hfits, enc_eq_packed _ (Nat.le_of_lt he)]
  · by_cases hroom : e + 1 < 255
    · have hbelow : ¬ 254 ≤ e := by omega
      simp [hfits, hroom, expMax, hbelow, enc_eq_packed _ (Nat.le_of_lt hroom)]
    · have hmax : 254 ≤ e := by omega
      simp [hfits, hroom, expMax, hmax, addOverflow_eq]

/-- Settles O31: the finite path at equal signs is `addSameSign` of the aligned significands. -/
theorem addSameSignsSum : Obligations.AddSameSignsSum := by
  intro a b s ha hb hab hba hsign
  have he : max (expOf a) (expOf b) < 255 := Nat.max_lt.mpr ⟨ha.1, hb.1⟩
  have hsum : addFinite s.params a b = sumPattern s.params a b := by
    rw [addFinite_of_close s.params rfl hab hba, if_pos hsign,
      addSameSign_eq s.params _ (alignedSig_lt a _) (alignedSig_lt b _) he, dec_s_toNat]
    rfl
  rw [exec_add_of_isFiniteNonzero s ha hb, hsum]

/-! ### Opposite signs (R76 to R79) -/

/-- The loop of R78 on an `x` that `k` left shifts bring into the window: it flushes exactly when the exponent does
not outlast the shifts (41_normalizer.md R68). A shift of 0 tests no exponent. -/
theorem cancelLoop_eq {bound k x : Nat} {re : Int} (hlow : 128 ≤ x * 2 ^ k) (hhigh : x * 2 ^ k < 256)
    (hbound : k ≤ bound) (hre : k = 0 → 0 < re) :
    cancelLoop bound x re = if re ≤ k then none else some (x * 2 ^ k, re - k) := by
  induction k generalizing bound x re with
  | zero =>
    have hpos : ¬ re ≤ 0 := Int.not_le.mpr (hre rfl)
    have hbit : x.testBit 7 = decide (128 ≤ x) := testBit_top (by simpa using hhigh)
    have hset : 128 ≤ x := by simpa using hlow
    cases bound with
    | zero => simp [cancelLoop, hpos]
    | succ bound => simp [cancelLoop, hbit, hset, hpos]
  | succ k ih =>
    obtain ⟨bound, rfl⟩ : ∃ n, bound = n + 1 := ⟨bound - 1, by omega⟩
    have hdouble : x * 2 ^ (k + 1) = x * 2 * 2 ^ k := by rw [Nat.pow_succ', Nat.mul_assoc]
    have hsmall : x < 128 := by
      have : x * 2 ≤ x * 2 * 2 ^ k := Nat.le_mul_of_pos_right _ (Nat.two_pow_pos k)
      omega
    have hbit : x.testBit 7 = false := Nat.testBit_lt_two_pow hsmall
    rw [hdouble] at hlow hhigh ⊢
    simp only [cancelLoop, hbit, Bool.false_eq_true, if_false, Nat.shiftLeft_eq, Nat.pow_one]
    by_cases hflush : re - 1 ≤ 0
    · rw [if_pos hflush, if_pos (by omega)]
    · rw [if_neg hflush, ih hlow hhigh (by omega) (by omega)]
      have hexp : re - 1 - (k : Int) = re - ((k + 1 : Nat) : Int) := by omega
      rw [hexp]
      exact if_congr (by omega) rfl rfl

theorem leftShift8_eq_sub_size {d : Nat} (hd : 0 < d) : leftShift8 d = 7 + 1 - d.size := by
  have hsize : d.size = d.log2 + 1 :=
    size_eq_succ_of_two_pow_le (Nat.log2_self_le (Nat.ne_of_gt hd)) Nat.lt_log2_self
  rw [leftShift8, hsize]
  omega

theorem leftShift8_le (d : Nat) : leftShift8 d ≤ 7 := Nat.sub_le _ _

/-- The places a value is short of bit 7 bring it into the window of R78. -/
theorem mul_two_pow_leftShift8_bounds {d : Nat} (hd : 0 < d) (hlt : d < 256) :
    128 ≤ d * 2 ^ leftShift8 d ∧ d * 2 ^ leftShift8 d < 256 := by
  rw [leftShift8_eq_sub_size hd]
  exact mul_two_pow_sub_size_bounds (w := 7) hd hlt

theorem addFlush_eq (p : Params) (rs : BitVec 1) :
    addFlush p rs = if p.addFlushSign = .resultSign then zeroOf rs.toNat else 0x0000#16 := by
  cases h : p.addFlushSign with
  | resultSign => simp [addFlush, h, signedZero_eq]
  | positive => simp [addFlush, h, canonZero]

/-- The difference `d` with sign `rs` after renormalisation: flushed, or packed at the exponent the shifts leave. At
exponent 0 both operands are denormal, so `d` has no bit 7 and is flushed. -/
theorem addOppositeSign_of_ne (p : Params) {sa sb rs : BitVec 1} {x y d e : Nat} (hne : x ≠ y)
    (hrs : (if y ≤ x then sa else sb) = rs) (hd : (if y ≤ x then x - y else y - x) = d)
    (hlt : d < 256) (hden : e = 0 → d < 128) (he : e ≤ 255) :
    addOppositeSign p sa sb x y e =
      if e ≤ leftShift8 d then addFlush p rs
      else packed rs.toNat (e - leftShift8 d) (d * 2 ^ leftShift8 d % 128) := by
  have hpos : 0 < d := by
    rw [← hd]
    split_ifs <;> omega
  obtain ⟨hlow, hhigh⟩ := mul_two_pow_leftShift8_bounds hpos hlt
  have hexp : leftShift8 d = 0 → 0 < (e : Int) := by
    intro hk
    simp only [hk, Nat.pow_zero, Nat.mul_one] at hlow
    omega
  simp only [addOppositeSign, ge_iff_le, hrs, hd, if_neg (Nat.ne_of_gt hpos),
    cancelLoop_eq hlow hhigh (leftShift8_le d) hexp, Int.ofNat_le]
  by_cases hflush : e ≤ leftShift8 d
  · rw [if_pos hflush, if_pos hflush]
  · have hsub : ((e : Int) - (leftShift8 d : Int)).toNat = e - leftShift8 d := by omega
    rw [if_neg hflush, if_neg hflush]
    simp only [hsub, enc_eq_packed _ (show e - leftShift8 d ≤ 255 by omega)]

theorem addOppositeSign_self (p : Params) (sa sb : BitVec 1) (x e : Nat) :
    addOppositeSign p sa sb x x e = 0x0000#16 := by
  simp [addOppositeSign, canonZero]

/-- The smaller number taken from the larger (R76) stays below their common bound. -/
theorem absDifference_lt {x y n : Nat} (hx : x < n) (hy : y < n) :
    (if y ≤ x then x - y else y - x) < n := by
  split_ifs <;> omega

/-- The opposite-sign path on the operands' own aligned significands is the loop-free difference. -/
theorem addOppositeSign_eq_differencePattern (p : Params) {a b : Word} {e : Nat}
    (he : e = max (expOf a) (expOf b)) (ha : IsFinite a) (hb : IsFinite b) :
    addOppositeSign p (dec a).s (dec b).s (alignedSig a e) (alignedSig b e) e =
      differencePattern p a b := by
  by_cases heq : alignedSig a e = alignedSig b e
  · rw [heq, addOppositeSign_self, differencePattern, ← he, if_pos heq]
  · have hsign : (if alignedSig b e ≤ alignedSig a e then (dec a).s else (dec b).s).toNat =
        if alignedSig b e ≤ alignedSig a e then signOf a else signOf b := by
      rw [apply_ite BitVec.toNat, dec_s_toNat, dec_s_toNat]
    have hlt := absDifference_lt (alignedSig_lt a e) (alignedSig_lt b e)
    have hden := fun hzero : e = 0 =>
      absDifference_lt (alignedSig_lt_of_expOf_eq_zero e (show expOf a = 0 by omega))
        (alignedSig_lt_of_expOf_eq_zero e (show expOf b = 0 by omega))
    rw [addOppositeSign_of_ne p heq rfl rfl hlt hden (by omega), addFlush_eq, hsign,
      differencePattern, ← he, if_neg heq]

/-- Settles O32: the finite path at opposite signs is `addOppositeSign` of the aligned significands. -/
theorem addOppositeSignsDifference : Obligations.AddOppositeSignsDifference := by
  intro a b s ha hb hab hba hsign
  rw [exec_add_of_isFiniteNonzero s ha hb, addFinite_of_close s.params rfl hab hba, if_neg hsign,
    addOppositeSign_eq_differencePattern s.params rfl ha.1 hb.1]

end Sys2Proof.Proofs
end

section
/-! The two ends of the multiplier (43_multiplier.md): the special operands ahead of its arithmetic (R85), and the final
exponents for which it does not pack a normal product (R88 to R90). -/

namespace Sys2Proof.Proofs

open Sys2Proof.Machine Sys2Proof.Laws

/-! ### Special operands (R85) -/

theorem exec_mul_of_special {a b v : Word} (h : mulSpecial a b = some v) (s : State) :
    exec (.mul a b) s = .next { s with r := v } := by
  simp [exec_mul, answer_eq_next_iff, multiplier, h]

theorem not_isNaN_of_isFinite {v : Word} (h : IsFinite v) : ¬ IsNaN v :=
  fun hnan => Nat.ne_of_lt h hnan.1

theorem not_isInf_of_isFinite {v : Word} (h : IsFinite v) : ¬ IsInf v :=
  fun hinf => Nat.ne_of_lt h hinf.1

theorem not_isNaN_of_isInf {v : Word} (h : IsInf v) : ¬ IsNaN v :=
  fun hnan => hnan.2 h.2

theorem not_isNaN_of_isZero {v : Word} (h : IsZero v) : ¬ IsNaN v :=
  not_isNaN_of_isFinite (isFinite_of_isZero h)

theorem not_isZero_of_isInf {v : Word} (h : IsInf v) : ¬ IsZero v :=
  fun hzero => not_isInf_of_isFinite (isFinite_of_isZero hzero) h

/-- Once no operand is a NaN, an infinity on either side is decided by whether the other side is a zero. -/
theorem mulSpecial_of_inf {a b : Word} (ha : ¬ IsNaN a) (hb : ¬ IsNaN b) (hinf : IsInf a ∨ IsInf b) :
    mulSpecial a b =
      if IsZero a ∨ IsZero b then some 0x7FC0#16 else some (infOf (signXor a b)) := by
  rw [mulSpecial_eq, if_neg ha, if_neg hb]
  by_cases hai : IsInf a
  · rw [if_pos hai]
    exact if_congr (or_iff_right (not_isZero_of_isInf hai)).symm rfl rfl
  · have hbi : IsInf b := hinf.resolve_left hai
    rw [if_neg hai, if_pos hbi]
    exact if_congr (or_iff_left (not_isZero_of_isInf hbi)).symm rfl rfl

theorem mulSpecial_of_finite {a b : Word} (ha : IsFinite a) (hb : IsFinite b) :
    mulSpecial a b = if IsZero a ∨ IsZero b then some (zeroOf (signXor a b)) else none := by
  rw [mulSpecial_eq, if_neg (not_isNaN_of_isFinite ha), if_neg (not_isNaN_of_isFinite hb),
    if_neg (not_isInf_of_isFinite ha), if_neg (not_isInf_of_isFinite hb)]

/-- Settles O39: the NaN clauses are the first two tests of `mulSpecial`; the others are the two laws above. -/
theorem mulSpecialCases : Obligations.MulSpecialCases := by
  intro a b s
  refine ⟨fun ha => ?nanLeft, fun ha hb => ?nanRight, fun h => ?infZero, fun ha hb hzero => ?infLeft,
    fun ha hzero hb => ?infRight, fun ha hb hzero => ?zero⟩ <;> apply exec_mul_of_special
  case nanLeft => rw [mulSpecial_eq, if_pos ha]
  case nanRight => rw [mulSpecial_eq, if_neg ha, if_pos hb]
  case infZero =>
    obtain ⟨hinf, hzero⟩ | ⟨hzero, hinf⟩ := h
    · rw [mulSpecial_of_inf (not_isNaN_of_isInf hinf) (not_isNaN_of_isZero hzero) (.inl hinf),
        if_pos (.inr hzero)]
    · rw [mulSpecial_of_inf (not_isNaN_of_isZero hzero) (not_isNaN_of_isInf hinf) (.inr hinf),
        if_pos (.inl hzero)]
  case infLeft =>
    rw [mulSpecial_of_inf (not_isNaN_of_isInf ha) hb (.inl ha),
      if_neg (not_or_intro (not_isZero_of_isInf ha) hzero)]
  case infRight =>
    rw [mulSpecial_of_inf ha (not_isNaN_of_isInf hb) (.inr hb),
      if_neg (not_or_intro hzero (not_isZero_of_isInf hb))]
  case zero => rw [mulSpecial_of_finite ha hb, if_pos hzero]

/-! ### The final exponent (R88 to R90) -/

/-- The tests of the final exponent in their order, with the bounds of R8 as numbers. -/
theorem mulPack_eq (p : Params) (rs : BitVec 1) (re : Int) (sig : Nat) :
    mulPack p rs re sig =
      if 255 ≤ re then infOf rs.toNat
      else if re < -6 then zeroOf rs.toNat
      else if re ≤ 0 then enc rs.toNat 0 (mulSubnormalMantissa p sig / 2 ^ (1 - re).toNat)
      else enc rs.toNat re.toNat sig := by
  simp only [mulPack, expMax, mulDenormFloor, ge_iff_le, Nat.cast_ofNat, signedInf_eq, signedZero_eq,
    Nat.shiftRight_eq_div_pow]

theorem mulPack_of_overflow (p : Params) (rs : BitVec 1) {re : Int} (sig : Nat) (h : 255 ≤ re) :
    mulPack p rs re sig = infOf rs.toNat := by
  rw [mulPack_eq, if_pos h]

theorem mulPack_of_flush (p : Params) (rs : BitVec 1) {re : Int} (sig : Nat) (h : re < -6) :
    mulPack p rs re sig = zeroOf rs.toNat := by
  rw [mulPack_eq, if_neg (by omega), if_pos h]

theorem mulSubnormalMantissa_eq (p : Params) (sig : Nat) :
    mulSubnormalMantissa p sig =
      if p.mulSubnormalSource = .significand8 then sig else sig % 128 := by
  cases h : p.mulSubnormalSource with
  | significand8 => simp [mulSubnormalMantissa, h]
  | fraction7 =>
    have hmask : sig &&& 0x7F = sig % 128 := Nat.and_two_pow_sub_one_eq_mod sig 7
    simp [mulSubnormalMantissa, h, hmask]

theorem mulSubnormalMantissa_le (p : Params) (sig : Nat) : mulSubnormalMantissa p sig ≤ sig := by
  rw [mulSubnormalMantissa_eq]
  split_ifs
  · exact Nat.le_refl sig
  · exact Nat.mod_le sig 128

/-- One place to the right and an 8-bit number fits the 7 bits of the mantissa field. -/
theorem div_two_pow_lt_128 {n k : Nat} (hn : n ≤ 0xFF) (hk : 1 ≤ k) : n / 2 ^ k < 128 := by
  have hpow : 2 ^ 1 ≤ 2 ^ k := Nat.pow_le_pow_right (by decide) hk
  calc n / 2 ^ k ≤ n / 2 ^ 1 := Nat.div_le_div_left hpow (by decide)
    _ < 128 := by omega

/-- The denormal path shifts by at least one place, so packing loses no bit of what is left. -/
theorem mulPack_of_denormal (p : Params) (rs : BitVec 1) {re : Int} {sig : Nat} (hsig : sig ≤ 0xFF)
    (hlow : -6 ≤ re) (hhigh : re ≤ 0) :
    mulPack p rs re sig = packed rs.toNat 0 (mulSubnormalMantissa p sig / 2 ^ (1 - re).toNat) := by
  have hfits : mulSubnormalMantissa p sig / 2 ^ (1 - re).toNat < 128 :=
    div_two_pow_lt_128 ((mulSubnormalMantissa_le p sig).trans hsig) (by omega)
  rw [mulPack_eq, if_neg (by omega), if_neg (Int.not_lt.mpr hlow), if_pos hhigh,
    enc_eq_packed _ (Nat.zero_le 255), Nat.mod_eq_of_lt hfits]

/-- Settles O40: the three ranges of the final exponent, the last with the mantissa of each instance. -/
theorem mulExponentDecidesResult : Obligations.MulExponentDecidesResult := by
  intro p rs re sig hsig
  refine ⟨mulPack_of_overflow p rs sig, mulPack_of_flush p rs sig, fun hlow hhigh hp => ?significand8,
    fun hlow hhigh hp => ?fraction7⟩ <;>
    rw [mulPack_of_denormal p rs hsig hlow hhigh, mulSubnormalMantissa_eq, hp]
  case significand8 => rw [if_pos rfl]
  case fraction7 => rw [if_neg (by decide)]

end Sys2Proof.Proofs
end

section
/-! The two ends of the divider (44_divider.md): the special operands ahead of its arithmetic (R95), the exponent before
renormalisation (R98), and the final exponents for which it does not pack a quotient (R100, R101). -/

namespace Sys2Proof.Proofs

open Sys2Proof.Machine Sys2Proof.Laws

/-! ### The exponent before renormalisation (R98) -/

theorem denormAdj_of_valueCorrect {p : Params} (h : p.divDenormAdj = .valueCorrect) (ea eb : BitVec 8) :
    denormAdj p ea eb = (if ea = 0#8 then 1 else 0) - (if eb = 0#8 then 1 else 0) := by
  simp only [denormAdj, h]
  split_ifs <;> rfl

/-- The inverted correction is the other one with the operands' exponents exchanged. -/
theorem denormAdj_of_inverted {p : Params} (h : p.divDenormAdj = .inverted) (ea eb : BitVec 8) :
    denormAdj p ea eb = (if eb = 0#8 then 1 else 0) - (if ea = 0#8 then 1 else 0) := by
  simp only [denormAdj, h]
  split_ifs <;> rfl

theorem denormAdj_of_both_zero (p : Params) : denormAdj p 0#8 0#8 = 0 := by
  cases h : p.divDenormAdj with
  | valueCorrect => rw [denormAdj_of_valueCorrect h, sub_self]
  | inverted => rw [denormAdj_of_inverted h, sub_self]

theorem divExponent_eq (p : Params) (ea eb : BitVec 8) :
    divExponent p ea eb = (ea.toNat : Int) - (eb.toNat : Int) + 127 + denormAdj p ea eb := rfl

/-- Settles O55: the correction of each instance, and its value when both exponents are zero. -/
theorem divExponentFollowsInstance : Obligations.DivExponentFollowsInstance := by
  intro p ea eb
  refine ⟨fun h => ?valueCorrect, fun h => ?inverted, fun ha hb => ?cancel⟩ <;> rw [divExponent_eq]
  case valueCorrect =>
    rw [denormAdj_of_valueCorrect h]
    omega
  case inverted =>
    rw [denormAdj_of_inverted h]
    omega
  case cancel =>
    rw [ha, hb, denormAdj_of_both_zero]
    rfl

/-! ### The final exponent (R100, R101) -/

/-- The tests of the final exponent in their order, with the bound of R8 as a number. -/
theorem divPack_eq (rs : BitVec 1) (re : Int) (q8 : Nat) :
    divPack rs re q8 =
      if 255 ≤ re then infOf rs.toNat
      else if re ≤ 0 then zeroOf rs.toNat
      else enc rs.toNat re.toNat q8 := by
  simp only [divPack, expMax, ge_iff_le, Nat.cast_ofNat, signedInf_eq, signedZero_eq]

theorem divPack_of_overflow (rs : BitVec 1) {re : Int} (q8 : Nat) (h : 255 ≤ re) :
    divPack rs re q8 = infOf rs.toNat := by
  rw [divPack_eq, if_pos h]

theorem divPack_of_flush (rs : BitVec 1) {re : Int} (q8 : Nat) (h : re ≤ 0) :
    divPack rs re q8 = zeroOf rs.toNat := by
  rw [divPack_eq, if_neg (by omega), if_pos h]

/-- Settles O47: the two outer ranges of the final exponent. -/
theorem divExponentDecidesResult : Obligations.DivExponentDecidesResult :=
  fun rs _ q8 => ⟨divPack_of_overflow rs q8, divPack_of_flush rs q8⟩

/-! ### Special operands (R95) -/

theorem exec_div_of_special {a b v : Word} {s : State} (h : divSpecial s.params a b = some v) :
    exec (.div a b) s = .next { s with r := v } := by
  simp [exec_div, answer_eq_next_iff, divider, h]

theorem divSpecial_of_naNFirst {p : Params} (h : p.divSpecialOrder = .naNFirst) (a b : Word) :
    divSpecial p a b = divSpecialNaNFirst a b := by
  simp only [divSpecial, h]

theorem divSpecial_of_divisorFirst {p : Params} (h : p.divSpecialOrder = .divisorFirst) (a b : Word) :
    divSpecial p a b = divSpecialDivisorFirst a b := by
  simp only [divSpecial, h]

theorem not_isInf_of_isNaN {v : Word} (h : IsNaN v) : ¬ IsInf v :=
  fun hinf => not_isNaN_of_isInf hinf h

theorem not_isZero_of_isNaN {v : Word} (h : IsNaN v) : ¬ IsZero v :=
  fun hzero => not_isNaN_of_isZero hzero h

/-! Under `DivisorFirst` the class of the divisor decides before that of the dividend, a NaN included. -/

theorem divSpecialDivisorFirst_by_nan (a : Word) {b : Word} (hb : IsNaN b) :
    divSpecialDivisorFirst a b = some b := by
  rw [divSpecialDivisorFirst_eq, if_pos hb.1, if_pos hb.2]

theorem divSpecialDivisorFirst_by_inf (a : Word) {b : Word} (hb : IsInf b) :
    divSpecialDivisorFirst a b =
      if IsInf a then some 0x7FC0#16 else some (zeroOf (signXor a b)) := by
  rw [divSpecialDivisorFirst_eq, if_pos hb.1, if_neg (not_not_intro hb.2)]

theorem divSpecialDivisorFirst_by_zero (a : Word) {b : Word} (hb : IsZero b) :
    divSpecialDivisorFirst a b =
      if IsZero a then some 0x7FC0#16 else some (infOf (signXor a b)) := by
  rw [divSpecialDivisorFirst_eq, if_neg (Nat.ne_of_lt (isFinite_of_isZero hb)), if_pos hb]

theorem divSpecialDivisorFirst_by_finiteNonzero (a : Word) {b : Word} (hb : IsFiniteNonzero b) :
    divSpecialDivisorFirst a b =
      if expOf a = 255 then
        if fracOf a ≠ 0 then some a else some (infOf (signXor a b))
      else if IsZero a then some (zeroOf (signXor a b))
      else none := by
  rw [divSpecialDivisorFirst_eq, if_neg (Nat.ne_of_lt hb.1), if_neg hb.2]

/-! Where no operand is a NaN both orders agree, by the class of the divisor. -/

theorem divSpecial_by_inf (p : Params) {a b : Word} (ha : ¬ IsNaN a) (hb : IsInf b) :
    divSpecial p a b = if IsInf a then some 0x7FC0#16 else some (zeroOf (signXor a b)) := by
  cases h : p.divSpecialOrder with
  | naNFirst =>
    rw [divSpecial_of_naNFirst h, divSpecialNaNFirst_eq, if_neg ha, if_neg (not_isNaN_of_isInf hb)]
    by_cases hinf : IsInf a
    · rw [if_pos ⟨hinf, hb⟩, if_pos hinf]
    · rw [if_neg (hinf ·.1), if_neg (not_isZero_of_isInf hb ·.2), if_neg hinf, if_pos hb, if_neg hinf]
  | divisorFirst => rw [divSpecial_of_divisorFirst h, divSpecialDivisorFirst_by_inf a hb]

theorem divSpecial_by_zero (p : Params) {a b : Word} (ha : ¬ IsNaN a) (hb : IsZero b) :
    divSpecial p a b = if IsZero a then some 0x7FC0#16 else some (infOf (signXor a b)) := by
  cases h : p.divSpecialOrder with
  | naNFirst =>
    have hinf : ¬ IsInf b := not_isInf_of_isFinite (isFinite_of_isZero hb)
    rw [divSpecial_of_naNFirst h, divSpecialNaNFirst_eq, if_neg ha, if_neg (not_isNaN_of_isZero hb),
      if_neg (hinf ·.2), if_neg hinf, if_pos hb, ite_self]
    exact if_congr (and_iff_left hb) rfl rfl
  | divisorFirst => rw [divSpecial_of_divisorFirst h, divSpecialDivisorFirst_by_zero a hb]

theorem divSpecial_by_finiteNonzero (p : Params) {a b : Word} (ha : ¬ IsNaN a) (hb : IsFiniteNonzero b) :
    divSpecial p a b =
      if IsInf a then some (infOf (signXor a b))
      else if IsZero a then some (zeroOf (signXor a b))
      else none := by
  cases h : p.divSpecialOrder with
  | naNFirst =>
    have hinf : ¬ IsInf b := not_isInf_of_isFinite hb.1
    rw [divSpecial_of_naNFirst h, divSpecialNaNFirst_eq, if_neg ha,
      if_neg (not_isNaN_of_isFinite hb.1), if_neg (hinf ·.2), if_neg (hb.2 ·.2), if_neg hinf,
      if_neg hb.2]
  | divisorFirst =>
    rw [divSpecial_of_divisorFirst h, divSpecialDivisorFirst_by_finiteNonzero a hb]
    by_cases hexp : expOf a = 255
    · have hfrac : fracOf a = 0 := by_contra fun hne => ha ⟨hexp, hne⟩
      rw [if_pos hexp, if_neg (not_not_intro hfrac), if_pos ⟨hexp, hfrac⟩]
    · have hinf : ¬ IsInf a := fun hai => hexp hai.1
      rw [if_neg hexp, if_neg hinf]

/-- Settles O45: the class of the divisor selects the law above that decides the result. -/
theorem divSpecialCases : Obligations.DivSpecialCases := by
  intro a b s
  refine ⟨fun ha hb => ⟨fun hai hbi => ?infInf, fun haz hbz => ?zeroZero, fun hai hbf => ?infFinite,
      fun haf hbi => ?finiteInf, fun haf hbz => ?finiteZero, fun haz hbf => ?zeroFinite⟩,
    fun horder => ⟨fun ha => ?nanLeft, fun ha hb => ?nanRight⟩,
    fun horder => ⟨fun hb => ?byNaN, fun ha hb => ?nanByInf, fun ha hb => ?nanByZero,
      fun ha hb => ?nanByFinite⟩⟩ <;> apply exec_div_of_special
  case infInf => rw [divSpecial_by_inf _ ha hbi, if_pos hai]
  case zeroZero => rw [divSpecial_by_zero _ ha hbz, if_pos haz]
  case infFinite =>
    by_cases hbz : IsZero b
    · rw [divSpecial_by_zero _ ha hbz, if_neg (not_isZero_of_isInf hai)]
    · rw [divSpecial_by_finiteNonzero _ ha ⟨hbf, hbz⟩, if_pos hai]
  case finiteInf => rw [divSpecial_by_inf _ ha hbi, if_neg (not_isInf_of_isFinite haf)]
  case finiteZero => rw [divSpecial_by_zero _ ha hbz, if_neg haf.2]
  case zeroFinite =>
    rw [divSpecial_by_finiteNonzero _ ha hbf,
      if_neg (not_isInf_of_isFinite (isFinite_of_isZero haz)), if_pos haz]
  case nanLeft => rw [divSpecial_of_naNFirst horder, divSpecialNaNFirst_eq, if_pos ha]
  case nanRight => rw [divSpecial_of_naNFirst horder, divSpecialNaNFirst_eq, if_neg ha, if_pos hb]
  case byNaN => rw [divSpecial_of_divisorFirst horder, divSpecialDivisorFirst_by_nan a hb]
  case nanByInf =>
    rw [divSpecial_of_divisorFirst horder, divSpecialDivisorFirst_by_inf a hb,
      if_neg (not_isInf_of_isNaN ha)]
  case nanByZero =>
    rw [divSpecial_of_divisorFirst horder, divSpecialDivisorFirst_by_zero a hb,
      if_neg (not_isZero_of_isNaN ha)]
  case nanByFinite =>
    rw [divSpecial_of_divisorFirst horder, divSpecialDivisorFirst_by_finiteNonzero a hb, if_pos ha.1,
      if_pos ha.2]

end Sys2Proof.Proofs
end

section
/-! Every request ends with a result and changes nothing but `r` (60_exceptions.md R105, 20_memory.md R35). -/

namespace Sys2Proof.Proofs

open Sys2Proof.Machine Sys2Proof.Laws

/-- The case split over the operations is `exec_answers_of_params`, read at the state's own parameters. -/
theorem exec_eq_next_with_r (i : Instr) (s : State) : ∃ v : Word, exec i s = .next { s with r := v } := by
  obtain ⟨v, hanswer⟩ := exec_answers_of_params s.params i
  exact ⟨v, hanswer s rfl⟩

theorem safeStep (s : State) : SafeStep s := by
  obtain ⟨v, hnext⟩ := exec_eq_next_with_r (decodeFields s.op s.a s.b) s
  exact ⟨v, (step_eq_exec_decodeFields s).trans hnext⟩

theorem exec_ne_fault (i : Instr) (s : State) (x : Fault) : exec i s ≠ .fault x := by
  obtain ⟨v, hnext⟩ := exec_eq_next_with_r i s
  rw [hnext]
  nofun

theorem exec_ne_refused (i : Instr) (s : State) (x : Refusal) : exec i s ≠ .refused x := by
  obtain ⟨v, hnext⟩ := exec_eq_next_with_r i s
  rw [hnext]
  nofun

/-- Settles O6: the completion of every request, of every step, and that completion excludes both stops. -/
theorem everyRequestReturnsResult : Obligations.EveryRequestReturnsResult :=
  ⟨exec_eq_next_with_r, safeStep, fun i s => ⟨exec_ne_fault i s, exec_ne_refused i s⟩⟩

end Sys2Proof.Proofs
end

section
/-! Requests as words and words as requests (30_encoding.md R41 to R43): the round trip, the request on the ports, and
what a step makes of a request the caller drives (70_reset_and_hazards.md R121). -/

namespace Sys2Proof.Proofs

open Sys2Proof.Machine Sys2Proof.Laws

/-! ### The round trip (R41, R42) -/

/-- The operation map gives a request back from its own three fields. -/
theorem decodeFields_of_fields (i : Instr) : decodeFields i.opSel i.operandA i.operandB = i := by
  cases i <;> simp [decodeFields, Instr.opSel, Instr.operandA, Instr.operandB]

@[simp] theorem decode_encode (i : Instr) : decode (encode i) = i := by
  rw [encode, decode_packRequest, decodeFields_of_fields]

theorem opSel_cases (op : OpSel) :
    op = 0#3 ∨ op = 1#3 ∨ op = 2#3 ∨ op = 3#3 ∨ op = 4#3 ∨ op = 5#3 ∨ op = 6#3 ∨ op = 7#3 := by
  bv_omega

/-- Every row of the operation map keeps `op`, `a` and `b`, the ignored `b` of a unary row included. -/
theorem encode_decodeFields (op : OpSel) (a b : Word) : encode (decodeFields op a b) = packRequest op a b := by
  obtain rfl | rfl | rfl | rfl | rfl | rfl | rfl | rfl := opSel_cases op <;> rfl

theorem encode_decode (w : RequestWord) : encode (decode w) = w := by
  rw [decode, encode_decodeFields, packRequest_fields]

/-- Settles O2: both directions go through the three fields of the word. -/
theorem decodeEncodeRoundTrip : Obligations.DecodeEncodeRoundTrip := by
  refine ⟨fun i _ => ⟨packRequest_toNat _ _ _, decode_encode i, ?_⟩, encode_decode⟩
  rw [decodeNumber_toNat, decode_encode]

/-- Settles O5: below 2^35 a number is that of the 35-bit word it writes. -/
theorem widerNumbersAreRefusedByName : Obligations.WiderNumbersAreRefusedByName := by
  refine fun w => ⟨fun hwide => ?wide, fun hfits => ⟨decode (BitVec.ofNat 35 w), ?decodes, ?encodes⟩⟩
  case wide => rw [decodeNumber, if_neg (Nat.not_lt_of_le hwide)]
  case decodes => rw [decodeNumber, if_pos hfits]
  case encodes => rw [encode_decode, BitVec.toNat_ofNat, Nat.mod_eq_of_lt hfits]

/-- A table word of 40 bits has room for every request word. -/
theorem encode_toNat_mod (i : Instr) : (encode i).toNat % 2 ^ 40 = (encode i).toNat := by
  have := (encode i).isLt
  omega

theorem decodeTableWord_encode (i : Instr) : decodeTableWord 40 (encode i).toNat = some i := by
  rw [decodeTableWord, encode_toNat_mod, decodeNumber_toNat, decode_encode]

/-- Settles O4: each printed number is that of the request's word, which the decoder gives back. -/
theorem decodeReadsSpecWords : Obligations.DecodeReadsSpecWords :=
  ⟨decodeTableWord_encode (.add 0x3F80#16 0x3F80#16), decodeTableWord_encode (.sub 0x4040#16 0x4000#16),
    decodeTableWord_encode (.mul 0x4000#16 0x4040#16), decodeTableWord_encode (.div 0x40C0#16 0x4000#16),
    decodeTableWord_encode (.iszero 0x8000#16 0x1234#16), decodeTableWord_encode (.isnan 0x7FC0#16 0x0000#16),
    decodeTableWord_encode (.isinf 0x7F80#16 0x0000#16), decodeTableWord_encode (.classify 0x3F80#16 0xFFFF#16)⟩

/-! ### Steps (R121) -/

/-- Settles O1: `step` is `exec` of the request on the ports by definition, and that request is `i` in both clauses. -/
theorem stepRunsRequestOnPorts : Obligations.StepRunsRequestOnPorts := by
  intro s
  have hstep : step s = exec (decode (packRequest s.op s.a s.b)) s := rfl
  refine ⟨hstep, fun i _ hdecode => ?_, fun i _ hword => ?_⟩
  · rw [hstep, hdecode]
  · rw [hstep, hword, decode_encode]

/-- Settles O8: the two states have one result between them, as their parameters and inputs agree. -/
theorem repeatedRequestChangesNothing : Obligations.RepeatedRequestChangesNothing := by
  intro s t hst
  obtain ⟨v, hstep⟩ := step_answers_of_inputs s.params s.op s.a s.b
  obtain rfl : t = { s with r := v } := by
    rw [← answer_eq_next_iff, ← hstep s rfl rfl rfl rfl, hst]
  exact hstep { s with r := v } rfl rfl rfl rfl

/-- A step on a driven request word runs the request that the word decodes to. -/
theorem step_driveRequest (s : State) (w : RequestWord) :
    step (s.driveRequest w) = exec (decode w) (s.driveRequest w) := by
  rw [step, fetch, requestWord_driveRequest]

theorem driveRequest_encode (s : State) (i : Instr) :
    s.driveRequest (encode i) = { s with op := i.opSel, a := i.operandA, b := i.operandB } := by
  simp [State.driveRequest, encode]

/-- A request has one result, on the ports it happens to find and on its own ports alike (R121; log entry 8). -/
theorem exec_and_request_answer (i : Instr) (s : State) : ∃ v : Word,
    exec i s = .next { s with r := v } ∧
    request i s = .next { params := s.params, op := i.opSel, a := i.operandA, b := i.operandB, r := v } := by
  obtain ⟨v, hanswer⟩ := exec_answers_of_params s.params i
  refine ⟨v, hanswer s rfl, ?_⟩
  have hparams : (s.driveRequest (encode i)).params = s.params := rfl
  rw [request, step_driveRequest, decode_encode, hanswer _ hparams, driveRequest_encode, answer_eq_next_iff]

theorem withFetchWord_encode (s : State) (i : Instr) :
    s.withFetchWord 40 (encode i).toNat = s.driveRequest (encode i) := by
  rw [State.withFetchWord, encode_toNat_mod, BitVec.ofNat_toNat, BitVec.setWidth_eq]

/-- Settles O12: `exec_and_request_answer`, and a table word drives the same ports as the request it encodes. -/
theorem drivenRequestIsAnswered : Obligations.DrivenRequestIsAnswered := by
  intro i s
  obtain ⟨v, hexec, hrequest⟩ := exec_and_request_answer i s
  refine ⟨v, hexec, hrequest, ?_⟩
  rw [withFetchWord_encode]
  exact hrequest

/-! ### Patterns (40_classifier.md R56, R61) -/

/-- Settles O14: the fields of a pattern fit their places, and a pattern is its fields packed. -/
theorem recodeRestoresPattern : Obligations.RecodeRestoresPattern := by
  intro v
  have hfrac : fracOf v % 128 = fracOf v := Nat.mod_mod _ _
  rw [recode, dec_s_toNat, dec_e_toNat, dec_m_toNat, enc_eq_packed _ (expOf_le v), hfrac, packed_fields]

end Sys2Proof.Proofs
end

section
/-! The shifts of 41_normalizer.md in closed form: the left shift into the 16-bit window (R64), the window of a product
(R66), and the loops of R78 and R99 against the counts (R68). -/

namespace Sys2Proof.Proofs

open Sys2Proof.Machine Sys2Proof.Laws

/-! ### The left shifts (R63, R64) -/

theorem log2_add_one_eq_size {n : Nat} (hn : 0 < n) : n.log2 + 1 = n.size :=
  (size_eq_succ_of_two_pow_le (Nat.log2_self_le (Nat.ne_of_gt hn)) Nat.lt_log2_self).symm

theorem leftShift16_eq_sub_size {q : Nat} (hq : 0 < q) : leftShift16 q = 15 + 1 - q.size := by
  rw [leftShift16, ← log2_add_one_eq_size hq]
  omega

theorem leftShift16_le (q : Nat) : leftShift16 q ≤ 15 := Nat.sub_le _ _

/-- Eight bits or more leave at most eight places to bit 15. -/
theorem leftShift16_le_eight {q : Nat} (hq : 0x80 ≤ q) : leftShift16 q ≤ 8 := by
  have hsize : 7 < q.size := Nat.lt_size.mpr hq
  rw [leftShift16_eq_sub_size (by omega)]
  omega

/-- The places a value is short of bit 15 bring it into the window of R99. -/
theorem mul_two_pow_leftShift16_bounds {q : Nat} (hq : 0 < q) (hlt : q < 0x10000) :
    0x8000 ≤ q * 2 ^ leftShift16 q ∧ q * 2 ^ leftShift16 q < 0x10000 := by
  rw [leftShift16_eq_sub_size hq]
  exact mul_two_pow_sub_size_bounds (w := 15) hq hlt

/-- The count of R63 is the number of places to bit 7. -/
theorem normLeft8_eq {x : Nat} (hpos : 0 < x) (hlt : x < 256) :
    normLeft8 x = ⟨leftShift8 x, x * 2 ^ leftShift8 x⟩ := by
  have hclz : clz32 (BitVec.ofNat 32 x) + x.size = 32 := clz32_ofNat_add_size (by omega)
  have hcount : clz32 (BitVec.ofNat 32 x) - 24 = leftShift8 x := by
    rw [leftShift8_eq_sub_size hpos]
    omega
  rw [normLeft8, hcount, Nat.shiftLeft_eq]

/-- The count of R64 is the number of places to bit 15. -/
theorem normLeft16_eq {q : Nat} (hpos : 0 < q) (hlt : q < 0x10000) :
    normLeft16 q = ⟨leftShift16 q, q * 2 ^ leftShift16 q⟩ := by
  have hclz : clz32 (BitVec.ofNat 32 q) + q.size = 32 := clz32_ofNat_add_size (by omega)
  have hcount : clz32 (BitVec.ofNat 32 q) - 16 = leftShift16 q := by
    rw [leftShift16_eq_sub_size hpos]
    omega
  rw [normLeft16, hcount, Nat.shiftLeft_eq]

/-- Settles O24: the count is `leftShift16`, and that shift fills the window of 16 bits. -/
theorem normLeft16SetsBit15 : Obligations.NormLeft16SetsBit15 := by
  intro q hlow hhigh
  have hsize : q.size ≤ 16 := Nat.size_le.mpr (by omega)
  have hclz : clz32 (BitVec.ofNat 32 q) + q.size = 32 := clz32_ofNat_add_size (by omega)
  have hshift : leftShift16 q = 15 + 1 - q.size := leftShift16_eq_sub_size hlow
  obtain ⟨hbit15, hwindow⟩ := mul_two_pow_leftShift16_bounds hlow (by omega)
  rw [normLeft16_eq hlow (by omega)]
  refine ⟨?_, leftShift16_le q, rfl, hbit15, Nat.le_of_lt_succ hwindow, leftShift16_le_eight⟩
  show leftShift16 q + 16 = _
  omega

/-! ### The right shifts (R65, R66) -/

/-- The 8-bit window of a 16-bit product, which the mask of R66 does not narrow. -/
theorem normProd_eq {p : Nat} (hp : p < 0x10000) :
    normProd p = if 0x8000 ≤ p then ⟨1, p / 256⟩ else ⟨0, p / 128⟩ := by
  have hbit : p.testBit 15 = decide (0x8000 ≤ p) := testBit_top hp
  have hmask (n : Nat) (hn : n < 256) : n &&& 0xFF = n := by
    rw [Nat.and_two_pow_sub_one_eq_mod n 8, Nat.mod_eq_of_lt hn]
  simp only [normProd, hbit, decide_eq_true_eq, Nat.shiftRight_eq_div_pow]
  by_cases hcarry : 0x8000 ≤ p
  · rw [if_pos hcarry, if_pos hcarry, hmask _ (by omega)]
  · rw [if_neg hcarry, if_neg hcarry, hmask _ (by omega)]

/-- Settles O25: `normRight9_eq` and `normProd_eq`, each branch of which fits 8 bits. -/
theorem rightShiftsTruncateToEightBits : Obligations.RightShiftsTruncateToEightBits := by
  refine ⟨fun x hx => ?sum, fun p hlow hhigh => ?product⟩
  case sum =>
    have hsum : normRight9 x = if 0x100 ≤ x then ⟨1, x / 2⟩ else ⟨0, x⟩ := by
      rw [normRight9_eq (by omega), ← ite_not]
      exact if_congr Nat.not_lt rfl rfl
    refine ⟨hsum, ?_⟩
    rw [hsum]
    split_ifs <;> simp only <;> omega
  case product =>
    have hproduct := normProd_eq (show p < 0x10000 by omega)
    refine ⟨hproduct, ?_⟩
    rw [hproduct]
    split_ifs <;> simp only <;> omega

/-! ### The loops (R68, R78, R99) -/

/-- The loop of R99 on a `q` that `k` left shifts bring into the window: it takes `k` from the exponent. -/
theorem quotientLoop_eq {bound k q : Nat} (re : Int) (hlow : 0x8000 ≤ q * 2 ^ k)
    (hhigh : q * 2 ^ k < 0x10000) (hbound : k ≤ bound) :
    quotientLoop bound q re = (q * 2 ^ k, re - k) := by
  induction k generalizing bound q re with
  | zero =>
    have hbit : q.testBit 15 = decide (0x8000 ≤ q) := testBit_top (by simpa using hhigh)
    have hset : 0x8000 ≤ q := by simpa using hlow
    cases bound with
    | zero => simp [quotientLoop]
    | succ bound => simp [quotientLoop, hbit, hset]
  | succ k ih =>
    obtain ⟨bound, rfl⟩ : ∃ n, bound = n + 1 := ⟨bound - 1, by omega⟩
    have hdouble : q * 2 ^ (k + 1) = q * 2 * 2 ^ k := by rw [Nat.pow_succ', Nat.mul_assoc]
    rw [hdouble] at hlow hhigh ⊢
    have hsmall : q < 0x8000 := by
      have : q * 2 ≤ q * 2 * 2 ^ k := Nat.le_mul_of_pos_right _ (Nat.two_pow_pos k)
      omega
    have hbit : q.testBit 15 = false := Nat.testBit_lt_two_pow hsmall
    have hshift : (q <<< 1) &&& 0xFFFF = q * 2 := by
      rw [Nat.and_two_pow_sub_one_eq_mod _ 16, Nat.shiftLeft_eq, Nat.pow_one, Nat.mod_eq_of_lt (by omega)]
    have hexp : re - 1 - (k : Int) = re - ((k + 1 : Nat) : Int) := by omega
    simp only [quotientLoop, hbit, Bool.false_eq_true, if_false, hshift]
    rw [ih _ hlow hhigh (by omega), hexp]

/-- The loop's bound of 8 is enough for every quotient of R97. -/
theorem quotientLoop_eq_leftShift16 {q : Nat} (re : Int) (hlow : 0x80 ≤ q) (hhigh : q < 0x10000) :
    quotientLoop 8 q re = (q * 2 ^ leftShift16 q, re - leftShift16 q) := by
  obtain ⟨hbit15, hwindow⟩ := mul_two_pow_leftShift16_bounds (by omega) hhigh
  exact quotientLoop_eq re hbit15 hwindow (leftShift16_le_eight hlow)

/-- Settles O26: each loop makes as many shifts as the count of its window says. -/
theorem shiftLoopsAgreeWithCounts : Obligations.ShiftLoopsAgreeWithCounts := by
  refine ⟨fun x E hlow hhigh hE => ?cancellation, fun q E hlow hhigh => ?quotient⟩
  case cancellation =>
    obtain ⟨hbit7, hwindow⟩ := mul_two_pow_leftShift8_bounds hlow (by omega)
    rw [normLeft8_eq hlow (by omega)]
    exact cancelLoop_eq hbit7 hwindow (leftShift8_le x) fun _ => hE
  case quotient =>
    rw [normLeft16_eq (by omega) (by omega)]
    exact quotientLoop_eq_leftShift16 E hlow (by omega)

end Sys2Proof.Proofs
end

section
/-! The multiplier's finite arithmetic (43_multiplier.md R86 to R91) without its loop, and MUL as a whole (R92). -/

namespace Sys2Proof.Proofs

open Sys2Proof.Machine Sys2Proof.Laws

/-! ### Operand preparation (R86) -/

theorem fracOf_pos_of_isFiniteNonzero {v : Word} (h : IsFiniteNonzero v) (hexp : expOf v = 0) : 0 < fracOf v :=
  Nat.pos_of_ne_zero fun hfrac => h.2 ⟨hexp, hfrac⟩

theorem mulPrepare_eq {v : Word} (h : IsFiniteNonzero v) :
    mulPrepare v =
      if expOf v = 0 then ⟨normSigOf v, 1, leftShift8 (fracOf v)⟩ else ⟨normSigOf v, expOf v, 0⟩ := by
  have hfrac : fracOf v ≤ 127 := fracOf_le v
  simp only [mulPrepare, dec_e_eq_zero_iff, dec_e_toNat, dec_m_toNat, normSigOf]
  by_cases hexp : expOf v = 0
  · simp only [if_pos hexp, normLeft8_eq (fracOf_pos_of_isFiniteNonzero h hexp) (show fracOf v < 256 by omega)]
  · simp only [if_neg hexp, or_128 (show fracOf v < 128 by omega)]

theorem mulPrepare_sig {v : Word} (h : IsFiniteNonzero v) : (mulPrepare v).sig = normSigOf v := by
  rw [mulPrepare_eq h]
  split_ifs <;> rfl

/-- The exponent an operand brings to the sum, its part of the adjustment included. -/
theorem mulPrepare_exponent {v : Word} (h : IsFiniteNonzero v) :
    ((mulPrepare v).e : Int) - (mulPrepare v).shift = normExpOf v := by
  rw [mulPrepare_eq h, normExpOf]
  split_ifs <;> simp

theorem mulPrepare_shift_le {v : Word} (h : IsFiniteNonzero v) : (mulPrepare v).shift ≤ 7 := by
  rw [mulPrepare_eq h]
  split_ifs
  · exact leftShift8_le _
  · exact Nat.zero_le 7

theorem normSigOf_bounds {v : Word} (h : IsFiniteNonzero v) : 128 ≤ normSigOf v ∧ normSigOf v < 256 := by
  have hfrac : fracOf v ≤ 127 := fracOf_le v
  rw [normSigOf]
  split_ifs with hexp
  · exact mul_two_pow_leftShift8_bounds (fracOf_pos_of_isFiniteNonzero h hexp) (by omega)
  · omega

theorem normExpOf_bounds {v : Word} (h : IsFinite v) : -6 ≤ normExpOf v ∧ normExpOf v ≤ 254 := by
  have hshift : leftShift8 (fracOf v) ≤ 7 := leftShift8_le _
  have hexp : expOf v ≤ 254 := Nat.le_of_lt_succ h
  rw [normExpOf]
  split_ifs <;> omega

/-! ### The product (R86, R87) -/

/-- A product of two 8-bit significands with bit 7 set (41_normalizer.md R69). -/
theorem significandProduct_bounds {x y : Nat} (hx : 128 ≤ x) (hx' : x < 256) (hy : 128 ≤ y) (hy' : y < 256) :
    0x4000 ≤ x * y ∧ x * y ≤ 0xFE01 :=
  ⟨Nat.mul_le_mul hx hy, Nat.mul_le_mul (Nat.le_of_lt_succ hx') (Nat.le_of_lt_succ hy')⟩

theorem normSigOf_mul_bounds {a b : Word} (ha : IsFiniteNonzero a) (hb : IsFiniteNonzero b) :
    0x4000 ≤ normSigOf a * normSigOf b ∧ normSigOf a * normSigOf b ≤ 0xFE01 := by
  obtain ⟨halow, hahigh⟩ := normSigOf_bounds ha
  obtain ⟨hblow, hbhigh⟩ := normSigOf_bounds hb
  exact significandProduct_bounds halow hahigh hblow hbhigh

theorem mulExponentSum_mulPrepare {a b : Word} (ha : IsFiniteNonzero a) (hb : IsFiniteNonzero b) :
    mulExponentSum (mulPrepare a) (mulPrepare b) = normExpOf a + normExpOf b - 127 := by
  rw [← mulPrepare_exponent ha, ← mulPrepare_exponent hb, mulExponentSum, bias]
  omega

/-- The carry of a product and the 8 bits kept of it (R66). -/
theorem normProd_count {p : Nat} (hp : p < 0x10000) : (normProd p).count = if 0x8000 ≤ p then 1 else 0 := by
  rw [normProd_eq hp]
  split_ifs <;> rfl

theorem normProd_value {p : Nat} (hp : p < 0x10000) :
    (normProd p).value = if 0x8000 ≤ p then p / 256 else p / 128 := by
  rw [normProd_eq hp]
  split_ifs <;> rfl

theorem productWindow_le {n : Nat} (h : n ≤ 0xFE01) : (if 0x8000 ≤ n then n / 256 else n / 128) ≤ 0xFF := by
  split_ifs <;> omega

/-- The end of the datapath in plain arithmetic, for every exponent (R88 to R91). -/
theorem mulPack_eq_packed (p : Params) (rs : BitVec 1) (re : Int) {sig : Nat} (hsig : sig ≤ 0xFF) :
    mulPack p rs re sig =
      if 255 ≤ re then infOf rs.toNat
      else if re < -6 then zeroOf rs.toNat
      else if re ≤ 0 then
        packed rs.toNat 0
          ((if p.mulSubnormalSource = .significand8 then sig else sig % 128) / 2 ^ (1 - re).toNat)
      else packed rs.toNat re.toNat (sig % 128) := by
  by_cases hover : 255 ≤ re
  · rw [mulPack_of_overflow p rs sig hover, if_pos hover]
  · by_cases hflush : re < -6
    · rw [mulPack_of_flush p rs sig hflush, if_neg hover, if_pos hflush]
    · by_cases hden : re ≤ 0
      · rw [mulPack_of_denormal p rs hsig (Int.not_lt.mp hflush) hden, mulSubnormalMantissa_eq,
          if_neg hover, if_neg hflush, if_pos hden]
      · have hexp : re.toNat ≤ 255 := by omega
        rw [mulPack_eq, if_neg hover, if_neg hflush, if_neg hden, enc_eq_packed sig hexp, if_neg hover,
          if_neg hflush, if_neg hden]

theorem mulFinite_eq_productPattern (p : Params) {a b : Word} (ha : IsFiniteNonzero a)
    (hb : IsFiniteNonzero b) : mulFinite p a b = productPattern p a b := by
  obtain ⟨-, hmax⟩ := normSigOf_mul_bounds ha hb
  have hlt : normSigOf a * normSigOf b < 0x10000 := by omega
  have hcarry : ((if 0x8000 ≤ normSigOf a * normSigOf b then 1 else 0 : Nat) : Int) =
      if 0x8000 ≤ normSigOf a * normSigOf b then 1 else 0 := by split_ifs <;> rfl
  have hsig := productWindow_le hmax
  simp only [mulFinite, mulPrepare_sig ha, mulPrepare_sig hb, mulExponentSum_mulPrepare ha hb,
    normProd_count hlt, normProd_value hlt, hcarry, mulPack_eq_packed p _ _ hsig, xorSign_toNat]
  rfl

/-! ### MUL as a whole (R92) -/

theorem exec_mul_eq (a b : Word) (s : State) :
    exec (.mul a b) s = .next { s with r := multiplier s.params a b } := by
  rw [exec_mul, answer_eq_next_iff]

theorem multiplier_of_special {p : Params} {a b v : Word} (h : mulSpecial a b = some v) :
    multiplier p a b = v := by
  simp only [multiplier, h]

theorem multiplier_of_finiteNonzero (p : Params) {a b : Word} (ha : IsFiniteNonzero a)
    (hb : IsFiniteNonzero b) : multiplier p a b = productPattern p a b := by
  simp only [multiplier, (mulSpecial_eq_none_iff a b).mpr ⟨ha, hb⟩, mulFinite_eq_productPattern p ha hb]

/-- Settles O41: the finite path is reached, and it is `productPattern`. -/
theorem mulFiniteProduct : Obligations.MulFiniteProduct := by
  intro a b s ha hb
  rw [exec_mul_eq, multiplier_of_finiteNonzero s.params ha hb]

theorem isFinite_of_not_isNaN_of_not_isInf {v : Word} (hnan : ¬ IsNaN v) (hinf : ¬ IsInf v) : IsFinite v := by
  have := expOf_le v
  unfold IsFinite
  omega

/-- The multiplier is its loop-free reference, in the order of 60_exceptions.md R108. -/
theorem multiplier_eq_mulReference (p : Params) (a b : Word) : multiplier p a b = mulReference p a b := by
  by_cases ha : IsNaN a
  · rw [mulReference, if_pos ha, multiplier_of_special (by rw [mulSpecial_eq, if_pos ha])]
  by_cases hb : IsNaN b
  · rw [mulReference, if_neg ha, if_pos hb, multiplier_of_special (by rw [mulSpecial_eq, if_neg ha, if_pos hb])]
  rw [mulReference, if_neg ha, if_neg hb]
  by_cases hinf : IsInf a ∨ IsInf b
  · have hzero : (IsInf a ∧ IsZero b) ∨ (IsZero a ∧ IsInf b) ↔ IsZero a ∨ IsZero b := by
      constructor
      · exact fun h => h.symm.imp And.left And.right
      · rintro (haz | hbz)
        · exact .inr ⟨haz, hinf.resolve_left fun hai => not_isZero_of_isInf hai haz⟩
        · exact .inl ⟨hinf.resolve_right fun hbi => not_isZero_of_isInf hbi hbz, hbz⟩
    rw [if_congr hzero rfl rfl, if_pos hinf, multiplier_of_special
      ((mulSpecial_of_inf ha hb hinf).trans (apply_ite some _ _ _).symm)]
  · obtain ⟨hainf, hbinf⟩ := not_or.mp hinf
    have hafin : IsFinite a := isFinite_of_not_isNaN_of_not_isInf ha hainf
    have hbfin : IsFinite b := isFinite_of_not_isNaN_of_not_isInf hb hbinf
    rw [if_neg (not_or_intro (hainf ·.1) (hbinf ·.2)), if_neg hinf]
    by_cases hzero : IsZero a ∨ IsZero b
    · rw [if_pos hzero, multiplier_of_special (by rw [mulSpecial_of_finite hafin hbfin, if_pos hzero])]
    · obtain ⟨haz, hbz⟩ := not_or.mp hzero
      rw [if_neg hzero, multiplier_of_finiteNonzero p ⟨hafin, haz⟩ ⟨hbfin, hbz⟩]

theorem exec_mul_eq_mulReference (a b : Word) (s : State) :
    exec (.mul a b) s = .next { s with r := mulReference s.params a b } := by
  rw [exec_mul_eq, multiplier_eq_mulReference]

end Sys2Proof.Proofs
end

section
/-! The divider's finite arithmetic (44_divider.md R96 to R102) without its loops, and DIV as a whole (R103). -/

namespace Sys2Proof.Proofs

open Sys2Proof.Machine Sys2Proof.Laws

/-! ### Restoring division (R97) -/

theorem mul_two_pow_succ_eq_add (y n : Nat) : y * 2 ^ (n + 1) = y * 2 ^ n + y * 2 ^ n := by
  rw [Nat.pow_succ, ← Nat.mul_assoc, Nat.mul_two]

theorem succ_mul_two_pow_succ (q n : Nat) : (q + 1) * 2 ^ (n + 1) = (2 * q + 1 + 1) * 2 ^ n := by
  rw [Nat.pow_succ]
  ring

/-- One iteration while the quotient has room for the bits that are left, so that doubling it loses none. -/
theorem divLoop_succ {y n rem q : Nat} (hroom : (q + 1) * 2 ^ (n + 1) ≤ 65536) :
    divLoop y (n + 1) ⟨rem, q⟩ =
      if y * 2 ^ n ≤ rem then divLoop y n ⟨rem - y * 2 ^ n, 2 * q + 1⟩ else divLoop y n ⟨rem, 2 * q⟩ := by
  have hpow : (q + 1) * 2 ≤ (q + 1) * 2 ^ (n + 1) :=
    Nat.mul_le_mul_left _ (Nat.le_self_pow (Nat.succ_ne_zero n) 2)
  have hdouble : 2 * q % 65536 = 2 * q := Nat.mod_eq_of_lt (by omega)
  rw [divLoop, divIter_eq, hdouble, apply_ite (divLoop y n)]

/-- A remainder below the divisor's next place leaves the loop as quotient and remainder of the division by `y`. -/
theorem divLoop_of_lt {y n rem q : Nat} (hy : 0 < y) (hlt : rem < y * 2 ^ n) (hroom : (q + 1) * 2 ^ n ≤ 65536) :
    divLoop y n ⟨rem, q⟩ = ⟨rem % y, q * 2 ^ n + rem / y⟩ := by
  induction n generalizing rem q with
  | zero =>
    have hlt' : rem < y := by simpa using hlt
    simp [divLoop, Nat.mod_eq_of_lt hlt', Nat.div_eq_of_lt hlt']
  | succ n ih =>
    rw [mul_two_pow_succ_eq_add] at hlt
    rw [divLoop_succ hroom]
    rw [succ_mul_two_pow_succ] at hroom
    by_cases hfits : y * 2 ^ n ≤ rem
    · obtain ⟨rest, rfl⟩ := Nat.exists_eq_add_of_le hfits
      have hquot : q * 2 ^ (n + 1) + (y * 2 ^ n + rest) / y = (2 * q + 1) * 2 ^ n + rest / y := by
        rw [Nat.mul_add_div hy, Nat.pow_succ]
        ring
      rw [if_pos hfits, Nat.add_sub_cancel_left, ih (by omega) hroom, Nat.mul_add_mod, hquot]
    · have hless : (2 * q + 1) * 2 ^ n ≤ (2 * q + 1 + 1) * 2 ^ n := Nat.mul_le_mul_right _ (Nat.le_succ _)
      have hquot : q * 2 ^ (n + 1) = 2 * q * 2 ^ n := by rw [Nat.pow_succ]; ring
      rw [if_neg hfits, ih (Nat.lt_of_not_le hfits) (hless.trans hroom), hquot]

/-- A remainder that outlasts every place sets every bit that is left. -/
theorem divLoop_q_of_le {y n rem q : Nat} (hle : y * 2 ^ n ≤ rem) (hroom : (q + 1) * 2 ^ n ≤ 65536) :
    (divLoop y n ⟨rem, q⟩).q + 1 = (q + 1) * 2 ^ n := by
  induction n generalizing rem q with
  | zero => simp [divLoop]
  | succ n ih =>
    rw [mul_two_pow_succ_eq_add] at hle
    rw [divLoop_succ hroom, if_pos (by omega), succ_mul_two_pow_succ]
    rw [succ_mul_two_pow_succ] at hroom
    exact ih (by omega) hroom

theorem restoringDivide_eq (x y : Nat) : restoringDivide x y = divLoop y 16 ⟨x * 2 ^ 15, 0⟩ := by
  rw [restoringDivide, divIters, divPreshift, Nat.shiftLeft_eq]

/-- Below saturation the 16 iterations divide exactly. -/
theorem restoringDivide_of_lt {x y : Nat} (hy : 0 < y) (hlt : x < 2 * y) :
    restoringDivide x y = ⟨x * 2 ^ 15 % y, x * 2 ^ 15 / y⟩ := by
  rw [restoringDivide_eq, divLoop_of_lt hy (by omega) (by omega), Nat.zero_mul, Nat.zero_add]

theorem restoringDivide_q_of_le {x y : Nat} (hle : 2 * y ≤ x) : (restoringDivide x y).q = 0xFFFF := by
  have h := divLoop_q_of_le (y := y) (n := 16) (rem := x * 2 ^ 15) (q := 0) (by omega) (by omega)
  rw [restoringDivide_eq]
  omega

/-- The quotient outgrows 16 bits exactly when the dividend's significand is at least twice the divisor's. -/
theorem quotient_saturates_iff {x y : Nat} (hy : 0 < y) : 0xFFFF < x * 2 ^ 15 / y ↔ 2 * y ≤ x := by
  rw [Nat.lt_iff_add_one_le, Nat.le_div_iff_mul_le hy]
  omega

theorem restoringDivide_q (x : Nat) {y : Nat} (hy : 0 < y) :
    (restoringDivide x y).q = min (x * 2 ^ 15 / y) 0xFFFF := by
  have hsat := quotient_saturates_iff (x := x) hy
  by_cases hlt : x < 2 * y
  · rw [restoringDivide_of_lt hy hlt]
    exact (Nat.min_eq_left (Nat.le_of_not_lt fun hover => Nat.not_le_of_lt hlt (hsat.mp hover))).symm
  · rw [restoringDivide_q_of_le (by omega), Nat.min_eq_right (by omega)]

/-- Settles O46: the two laws of the loop, below and above saturation. -/
theorem restoringDivisionIsSaturatingFloor : Obligations.RestoringDivisionIsSaturatingFloor := by
  refine fun x y _ _ hy _ => ⟨restoringDivide_q x hy, quotient_saturates_iff hy, fun hlt => ?_⟩
  rw [restoringDivide_of_lt hy hlt]
  exact ⟨(Nat.div_add_mod' _ _).symm, Nat.mod_lt _ hy⟩

/-- Every quotient of two significands has a bit at 7 or above and fits 16 bits (41_normalizer.md R69). -/
theorem saturatingQuotient_bounds {x y : Nat} (hx : 0 < x) (hy : 0 < y) (hy' : y ≤ 0xFF) :
    0x80 ≤ min (x * 2 ^ 15 / y) 0xFFFF ∧ min (x * 2 ^ 15 / y) 0xFFFF < 0x10000 := by
  have hlow : 0x80 ≤ x * 2 ^ 15 / y := by
    rw [Nat.le_div_iff_mul_le hy]
    omega
  omega

/-! ### The quotient packed (R98 to R102) -/

/-- The end of the datapath in plain arithmetic, for every exponent (R100 to R102). -/
theorem divPack_eq_packed (rs : BitVec 1) (re : Int) (q8 : Nat) :
    divPack rs re q8 =
      if 255 ≤ re then infOf rs.toNat
      else if re ≤ 0 then zeroOf rs.toNat
      else packed rs.toNat re.toNat (q8 % 128) := by
  by_cases hover : 255 ≤ re
  · rw [divPack_of_overflow rs q8 hover, if_pos hover]
  · by_cases hflush : re ≤ 0
    · rw [divPack_of_flush rs q8 hflush, if_neg hover, if_pos hflush]
    · rw [divPack_eq, if_neg hover, if_neg hflush, enc_eq_packed _ (by omega), if_neg hover, if_neg hflush]

theorem divFinite_eq_quotientPattern (p : Params) {a b : Word} (ha : IsFiniteNonzero a)
    (hb : IsFiniteNonzero b) : divFinite p a b = quotientPattern p a b := by
  have hapos : 0 < sigOf a := sigOf_pos ha.2
  have hbpos : 0 < sigOf b := sigOf_pos hb.2
  obtain ⟨hlow, hhigh⟩ := saturatingQuotient_bounds hapos hbpos (sigOf_le b)
  simp only [divFinite, significand_dec, restoringDivide_q _ hbpos, quotientLoop_eq_leftShift16 _ hlow hhigh,
    divExponent_dec, denormAdj_eq, divPack_eq_packed, xorSign_toNat, quotientShift, Nat.shiftRight_eq_div_pow]
  rfl

/-! ### DIV as a whole (R103) -/

theorem exec_div_eq (a b : Word) (s : State) :
    exec (.div a b) s = .next { s with r := divider s.params a b } := by
  rw [exec_div, answer_eq_next_iff]

theorem divider_of_special {p : Params} {a b v : Word} (h : divSpecial p a b = some v) :
    divider p a b = v := by
  simp only [divider, h]

theorem divider_of_finiteNonzero (p : Params) {a b : Word} (ha : IsFiniteNonzero a)
    (hb : IsFiniteNonzero b) : divider p a b = quotientPattern p a b := by
  simp only [divider, (divSpecial_eq_none_iff p a b).mpr ⟨ha, hb⟩, divFinite_eq_quotientPattern p ha hb]

/-- Settles O48: the finite path is reached, and it is `quotientPattern`. -/
theorem divFiniteQuotient : Obligations.DivFiniteQuotient := by
  intro a b s ha hb
  rw [exec_div_eq, divider_of_finiteNonzero s.params ha hb]

/-- Where no operand is a NaN the class of the divisor decides, in both orders. -/
theorem divider_of_numbers (p : Params) {a b : Word} (ha : ¬ IsNaN a) (hb : ¬ IsNaN b) :
    divider p a b = divReferenceNumbers p a b := by
  rw [divReferenceNumbers]
  by_cases hbinf : IsInf b
  · have hbz : ¬ IsZero b := not_isZero_of_isInf hbinf
    rw [divider_of_special ((divSpecial_by_inf p ha hbinf).trans (apply_ite some _ _ _).symm)]
    by_cases hainf : IsInf a
    · rw [if_pos hainf, if_pos (.inl ⟨hainf, hbinf⟩)]
    · rw [if_neg hainf, if_neg (not_or_intro (hainf ·.1) (hbz ·.2)), if_neg (not_or_intro hainf hbz),
        if_pos (.inl hbinf)]
  by_cases hbz : IsZero b
  · rw [divider_of_special ((divSpecial_by_zero p ha hbz).trans (apply_ite some _ _ _).symm)]
    by_cases haz : IsZero a
    · rw [if_pos haz, if_pos (.inr ⟨haz, hbz⟩)]
    · rw [if_neg haz, if_neg (not_or_intro (hbinf ·.2) (haz ·.1)), if_pos (.inr hbz)]
  have hbfin : IsFiniteNonzero b := ⟨isFinite_of_not_isNaN_of_not_isInf hb hbinf, hbz⟩
  rw [if_neg (not_or_intro (hbinf ·.2) (hbz ·.2))]
  by_cases hainf : IsInf a
  · rw [divider_of_special (by rw [divSpecial_by_finiteNonzero p ha hbfin, if_pos hainf]),
      if_pos (.inl hainf)]
  rw [if_neg (not_or_intro hainf hbz)]
  by_cases haz : IsZero a
  · rw [divider_of_special (by rw [divSpecial_by_finiteNonzero p ha hbfin, if_neg hainf, if_pos haz]),
      if_pos (.inr haz)]
  · rw [if_neg (not_or_intro hbinf haz),
      divider_of_finiteNonzero p ⟨isFinite_of_not_isNaN_of_not_isInf ha hainf, haz⟩ hbfin]

/-- Under `NaNFirst` the leftmost NaN is the result. -/
theorem divider_naNFirst {p : Params} (h : p.divSpecialOrder = .naNFirst) (a b : Word) :
    divider p a b = if IsNaN a then a else if IsNaN b then b else divReferenceNumbers p a b := by
  by_cases ha : IsNaN a
  · rw [divider_of_special (by rw [divSpecial_of_naNFirst h, divSpecialNaNFirst_eq, if_pos ha]), if_pos ha]
  by_cases hb : IsNaN b
  · rw [divider_of_special (by rw [divSpecial_of_naNFirst h, divSpecialNaNFirst_eq, if_neg ha, if_pos hb]),
      if_neg ha, if_pos hb]
  · rw [divider_of_numbers p ha hb, if_neg ha, if_neg hb]

/-- Under `DivisorFirst` a NaN divisor is the result, and a NaN dividend only of a finite nonzero divisor. -/
theorem divider_divisorFirst {p : Params} (h : p.divSpecialOrder = .divisorFirst) (a b : Word) :
    divider p a b =
      if IsNaN b then b
      else if IsNaN a then
        if IsInf b then zeroOf (signXor a b) else if IsZero b then infOf (signXor a b) else a
      else divReferenceNumbers p a b := by
  by_cases hb : IsNaN b
  · rw [divider_of_special (by rw [divSpecial_of_divisorFirst h, divSpecialDivisorFirst_by_nan a hb]), if_pos hb]
  rw [if_neg hb]
  by_cases ha : IsNaN a
  · rw [if_pos ha]
    by_cases hbinf : IsInf b
    · rw [if_pos hbinf, divider_of_special (by
        rw [divSpecial_of_divisorFirst h, divSpecialDivisorFirst_by_inf a hbinf,
          if_neg (not_isInf_of_isNaN ha)])]
    rw [if_neg hbinf]
    by_cases hbz : IsZero b
    · rw [if_pos hbz, divider_of_special (by
        rw [divSpecial_of_divisorFirst h, divSpecialDivisorFirst_by_zero a hbz,
          if_neg (not_isZero_of_isNaN ha)])]
    · have hbfin : IsFiniteNonzero b := ⟨isFinite_of_not_isNaN_of_not_isInf hb hbinf, hbz⟩
      rw [if_neg hbz, divider_of_special (by
        rw [divSpecial_of_divisorFirst h, divSpecialDivisorFirst_by_finiteNonzero a hbfin, if_pos ha.1,
          if_pos ha.2])]
  · rw [divider_of_numbers p ha hb, if_neg ha]

/-- The divider is its loop-free reference, in the instance's order (R95, 60_exceptions.md R108). -/
theorem divider_eq_divReference (p : Params) (a b : Word) : divider p a b = divReference p a b := by
  rw [divReference]
  cases h : p.divSpecialOrder with
  | naNFirst => rw [divider_naNFirst h, if_pos rfl]
  | divisorFirst => rw [divider_divisorFirst h, if_neg (show ¬ DivSpecialOrder.divisorFirst = .naNFirst by decide)]

theorem exec_div_eq_divReference (a b : Word) (s : State) :
    exec (.div a b) s = .next { s with r := divReference s.params a b } := by
  rw [exec_div_eq, divider_eq_divReference]

end Sys2Proof.Proofs
end

section
/-! ADD and SUB as a whole (42_adder.md R81, R82): the loop-free reference in the order of 60_exceptions.md R108, and
what the spec infers from it (R51, R80, R83). -/

namespace Sys2Proof.Proofs

open Sys2Proof.Machine Sys2Proof.Laws

/-! ### The special patterns as fields -/

@[simp] theorem expOf_zeroOf (s : Nat) : expOf (zeroOf s) = 0 := expOf_packed (by omega) (by omega)
@[simp] theorem fracOf_zeroOf (s : Nat) : fracOf (zeroOf s) = 0 := fracOf_packed (by omega)
@[simp] theorem expOf_infOf (s : Nat) : expOf (infOf s) = 255 := expOf_packed (by omega) (by omega)
@[simp] theorem fracOf_infOf (s : Nat) : fracOf (infOf s) = 0 := fracOf_packed (by omega)

theorem isNaN_canonNaN : IsNaN 0x7FC0#16 := by decide

theorem signOf_zeroOf {s : Nat} (hs : s ≤ 1) : signOf (zeroOf s) = s := signOf_packed hs (by omega) (by omega)
theorem signOf_infOf {s : Nat} (hs : s ≤ 1) : signOf (infOf s) = s := signOf_packed hs (by omega) (by omega)

/-- There are two zeros, told apart by their sign. -/
theorem eq_of_isZero {v : Word} (h : IsZero v) : v = 0x0000#16 ∨ v = 0x8000#16 := by
  have hsign : signOf v = 0 ∨ signOf v = 1 := by
    have := signOf_le_one v
    omega
  exact hsign.imp (fun hs => word_ext hs h.1 h.2) (fun hs => word_ext hs h.1 h.2)

theorem isFiniteNonzero_of_denormal {v : Word} (h : IsDenormal v) : IsFiniteNonzero v :=
  ⟨by unfold IsFinite; omega, fun hz => h.2 hz.2⟩

theorem isFiniteNonzero_of_normal {v : Word} (h : IsNormal v) : IsFiniteNonzero v :=
  ⟨by unfold IsFinite; omega, fun hz => by omega⟩

/-! ### The early exit (R73) -/

theorem addFinite_of_far_left (p : Params) {a b : Word} (h : expOf b + 8 < expOf a) : addFinite p a b = a := by
  simp only [addFinite, align_eq, if_pos h]

theorem addFinite_of_far_right (p : Params) {a b : Word} (h : expOf a + 8 < expOf b) : addFinite p a b = b := by
  have hother : ¬ expOf b + 8 < expOf a := by omega
  simp only [addFinite, align_eq, if_neg hother, if_pos h]

/-- Settles O30: the alignment's early exit on either side. -/
theorem addEarlyExit : Obligations.AddEarlyExit := by
  refine fun a b s ha hb => ⟨fun hfar => ?_, fun hfar => ?_⟩ <;> rw [exec_add_of_isFiniteNonzero s ha hb]
  · rw [addFinite_of_far_left _ hfar]
  · rw [addFinite_of_far_right _ hfar]

/-! ### The reference (R108) -/

theorem addReference_of_finiteNonzero (p : Params) {a b : Word} (ha : IsFiniteNonzero a)
    (hb : IsFiniteNonzero b) :
    addReference p a b =
      if expOf b + 8 < expOf a then a
      else if expOf a + 8 < expOf b then b
      else if signOf a = signOf b then sumPattern p a b
      else differencePattern p a b := by
  rw [addReference, if_neg (not_isNaN_of_isFinite ha.1), if_neg (not_isInf_of_isFinite ha.1),
    if_neg (not_not_intro hb.1), if_neg ha.2, if_neg hb.2]

theorem addReference_of_isZero_left (p : Params) {a : Word} (b : Word) (ha : IsZero a) :
    addReference p a b = b := by
  have hfin : IsFinite a := isFinite_of_isZero ha
  rw [addReference, if_neg (not_isNaN_of_isFinite hfin), if_neg (not_isInf_of_isFinite hfin), if_pos ha, ite_self]

theorem addReference_of_isZero_right (p : Params) {a b : Word} (ha : IsFiniteNonzero a) (hb : IsZero b) :
    addReference p a b = a := by
  rw [addReference, if_neg (not_isNaN_of_isFinite ha.1), if_neg (not_isInf_of_isFinite ha.1),
    if_neg (not_not_intro (isFinite_of_isZero hb)), if_neg ha.2, if_pos hb]

theorem exec_add_eq_addReference_of_finiteNonzero {a b : Word} (s : State) (ha : IsFiniteNonzero a)
    (hb : IsFiniteNonzero b) : exec (.add a b) s = .next { s with r := addReference s.params a b } := by
  obtain ⟨hleft, hright⟩ := addEarlyExit a b s ha hb
  rw [addReference_of_finiteNonzero s.params ha hb]
  by_cases hfarLeft : expOf b + 8 < expOf a
  · rw [hleft hfarLeft, if_pos hfarLeft]
  by_cases hfarRight : expOf a + 8 < expOf b
  · rw [hright hfarRight, if_neg hfarLeft, if_pos hfarRight]
  rw [if_neg hfarLeft, if_neg hfarRight]
  by_cases hsign : signOf a = signOf b
  · rw [addSameSignsSum a b s ha hb (Nat.le_of_not_lt hfarLeft) (Nat.le_of_not_lt hfarRight) hsign, if_pos hsign]
  · rw [addOppositeSignsDifference a b s ha hb (Nat.le_of_not_lt hfarLeft) (Nat.le_of_not_lt hfarRight) hsign,
      if_neg hsign]

/-- ADD answers its loop-free reference: the clauses of R70, R71, R73, R74 and R76, one for each class of operands. -/
theorem exec_add_eq_addReference (a b : Word) (s : State) :
    exec (.add a b) s = .next { s with r := addReference s.params a b } := by
  obtain ⟨hnan, hinfNaN, hinfInf, hinfNegInf, hinfFinite, hfinite⟩ := addNaNAndInfinityOperands a b s
  by_cases han : IsNaN a
  · rw [hnan han, addReference, if_pos han]
  by_cases hai : IsInf a
  · rw [addReference, if_neg han, if_pos hai]
    by_cases hbn : IsNaN b
    · rw [hinfNaN hai hbn, if_pos hbn]
    by_cases hbi : IsInf b
    · by_cases hsign : signOf a = signOf b
      · rw [hinfInf hai hbi hsign, if_neg hbn, if_neg fun h => h.2 hsign]
      · rw [hinfNegInf hai hbi hsign, if_neg hbn, if_pos ⟨hbi, hsign⟩]
    · rw [hinfFinite hai (isFinite_of_not_isNaN_of_not_isInf hbn hbi), if_neg hbn, if_neg fun h => hbi h.1]
  have haf : IsFinite a := isFinite_of_not_isNaN_of_not_isInf han hai
  by_cases hbf : IsFinite b
  · by_cases haz : IsZero a
    · rw [exec_add_of_isZero_left b s haz, addReference_of_isZero_left s.params b haz]
    by_cases hbz : IsZero b
    · rw [exec_add_of_isZero_right s ⟨haf, haz⟩ hbz, addReference_of_isZero_right s.params ⟨haf, haz⟩ hbz]
    · exact exec_add_eq_addReference_of_finiteNonzero s ⟨haf, haz⟩ ⟨hbf, hbz⟩
  · rw [hfinite haf hbf, addReference, if_neg han, if_neg hai, if_pos hbf]

/-- SUB is ADD of the flipped operand (R82). -/
theorem exec_sub_eq_exec_add (a b : Word) (s : State) : exec (.sub a b) s = exec (.add a (flipSign b)) s := by
  rw [exec_sub, exec_add, adder_negB]

/-- Settles O35: a zero on the left gives the other operand, the flipped one for SUB. -/
theorem negAndCopyAreExact : Obligations.NegAndCopyAreExact := by
  intro x held s
  have hzero : IsZero 0x0000#16 := by decide
  refine ⟨rfl, ?_, rfl, exec_add_of_isZero_left x s hzero⟩
  rw [exec_sub_eq_exec_add, exec_add_of_isZero_left _ s hzero, flipSign]

/-! ### Sums (R74, R75, R80) -/

theorem alignedSig_of_denormal {v : Word} (h : IsDenormal v) : alignedSig v 0 = fracOf v := by
  simp [alignedSig, sigOf, h.1]

/-- Settles O33: the larger exponent is 0 and the sum of two 7-bit mantissas does not reach 256. -/
theorem addDenormalSumsKeepExponentZero : Obligations.AddDenormalSumsKeepExponentZero := by
  intro a b s ha hb hsign
  have haf : IsFiniteNonzero a := isFiniteNonzero_of_denormal ha
  have hbf : IsFiniteNonzero b := isFiniteNonzero_of_denormal hb
  have hmax : max (expOf a) (expOf b) = 0 := by omega
  have hsum : fracOf a + fracOf b < 256 := by
    have := fracOf_le a
    have := fracOf_le b
    omega
  rw [addSameSignsSum a b s haf hbf (by omega) (by omega) hsign, sumPattern, hmax, alignedSig_of_denormal ha,
    alignedSig_of_denormal hb, if_pos hsum]

/-- A sum is finite and no smaller in exponent than its operands, or it is the overflow result of the instance. -/
theorem sumPattern_cases (p : Params) {a b : Word} (ha : IsFinite a) (hb : IsFinite b) :
    (IsFinite (sumPattern p a b) ∧ max (expOf a) (expOf b) ≤ expOf (sumPattern p a b)) ∨
      (max (expOf a) (expOf b) = 254 ∧
        ((p.addOverflowResult = .signedInfinity ∧ IsInf (sumPattern p a b)) ∨
          (p.addOverflowResult = .canonicalNaN ∧ IsNaN (sumPattern p a b)))) := by
  have hmax : max (expOf a) (expOf b) < 255 := Nat.max_lt.mpr ⟨ha, hb⟩
  generalize hx : alignedSig a (max (expOf a) (expOf b)) + alignedSig b (max (expOf a) (expOf b)) = x
  rw [sumPattern, hx]
  by_cases hfits : x < 256
  · have hexp := expOf_packed (s := signOf a) (e := max (expOf a) (expOf b)) (m := x % 128) (by omega) (by omega)
    rw [if_pos hfits, IsFinite, hexp]
    exact .inl ⟨hmax, Nat.le_refl _⟩
  by_cases hroom : max (expOf a) (expOf b) + 1 < 255
  · have hexp := expOf_packed (s := signOf a) (e := max (expOf a) (expOf b) + 1) (m := x / 2 % 128)
      (by omega) (by omega)
    rw [if_neg hfits, if_pos hroom, IsFinite, hexp]
    exact .inl ⟨hroom, Nat.le_succ _⟩
  · rw [if_neg hfits, if_neg hroom]
    refine .inr ⟨by omega, ?_⟩
    cases p.addOverflowResult with
    | signedInfinity => exact .inl ⟨rfl, by rw [if_pos rfl]; exact ⟨expOf_infOf _, fracOf_infOf _⟩⟩
    | canonicalNaN => exact .inr ⟨rfl, isNaN_canonNaN⟩

/-! ### Differences (R76 to R80) -/

/-- A difference is a zero or a normal pattern, never a denormal (10_state.md R24). -/
theorem differencePattern_cases (p : Params) {a b : Word} (ha : IsFinite a) (hb : IsFinite b) :
    IsZero (differencePattern p a b) ∨ IsNormal (differencePattern p a b) := by
  have hmax : max (expOf a) (expOf b) < 255 := Nat.max_lt.mpr ⟨ha, hb⟩
  unfold differencePattern
  extract_lets e x y d sgn k
  have he : e < 255 := hmax
  have hzero : IsZero 0x0000#16 := by decide
  by_cases hcancel : x = y
  · rw [if_pos hcancel]
    exact .inl hzero
  by_cases hflush : e ≤ k
  · rw [if_neg hcancel, if_pos hflush]
    refine .inl ?_
    split_ifs
    · exact ⟨expOf_zeroOf _, fracOf_zeroOf _⟩
    · exact hzero
  · have hexp := expOf_packed (s := sgn) (e := e - k) (m := d * 2 ^ k % 128) (by omega) (by omega)
    rw [if_neg hcancel, if_neg hflush, IsNormal, hexp]
    exact .inr (by omega)

/-! ### What follows for every ADD (R24, R83) -/

/-- A NaN or an infinity on the left never gives a finite result (R70). -/
theorem not_isFinite_addReference_left (p : Params) {a : Word} (b : Word) (ha : ¬ IsFinite a) :
    ¬ IsFinite (addReference p a b) := by
  rw [addReference]
  by_cases hnan : IsNaN a
  · rwa [if_pos hnan]
  have hinf : IsInf a := by_contra fun hinf => ha (isFinite_of_not_isNaN_of_not_isInf hnan hinf)
  rw [if_neg hnan, if_pos hinf]
  split_ifs with hbnan
  · exact fun hfin => not_isNaN_of_isFinite hfin hbnan
  · decide
  · exact ha

/-- A denormal result needs both stored exponents 0 (R24): every other path keeps or reaches a nonzero exponent. -/
theorem exponents_eq_zero_of_addReference_denormal {p : Params} {a b : Word}
    (h : IsDenormal (addReference p a b)) : expOf a = 0 ∧ expOf b = 0 := by
  have hfinite : IsFinite (addReference p a b) := (isFiniteNonzero_of_denormal h).1
  by_cases haf : IsFinite a
  · by_cases haz : IsZero a
    · rw [addReference_of_isZero_left p b haz] at h
      exact ⟨haz.1, h.1⟩
    by_cases hbz : IsZero b
    · rw [addReference_of_isZero_right p ⟨haf, haz⟩ hbz] at h
      exact ⟨h.1, hbz.1⟩
    by_cases hbf : IsFinite b
    · rw [addReference_of_finiteNonzero p ⟨haf, haz⟩ ⟨hbf, hbz⟩] at h hfinite
      split_ifs at h hfinite
      · omega
      · omega
      · obtain ⟨-, hexp⟩ | ⟨-, ⟨-, hinf⟩ | ⟨-, hnan⟩⟩ := sumPattern_cases p haf hbf
        · omega
        · exact absurd hinf (not_isInf_of_isFinite hfinite)
        · exact absurd hnan (not_isNaN_of_isFinite hfinite)
      · obtain hzero | hnormal := differencePattern_cases p haf hbf <;> omega
    · rw [addReference, if_neg (not_isNaN_of_isFinite haf), if_neg (not_isInf_of_isFinite haf), if_pos hbf] at hfinite
      exact absurd hfinite hbf
  · exact absurd hfinite (not_isFinite_addReference_left p b haf)

end Sys2Proof.Proofs
end

section
/-! What the spec infers for ADD in R83 (42_adder.md): it commutes on finite operands, a pattern and its flip cancel,
and NaN and infinite results have causes. -/

namespace Sys2Proof.Proofs

open Sys2Proof.Machine Sys2Proof.Laws

/-! ### Commutation (R83 item 1) -/

theorem sumPattern_comm (p : Params) {a b : Word} (h : signOf a = signOf b) :
    sumPattern p a b = sumPattern p b a := by
  simp only [sumPattern, Nat.max_comm (expOf b), Nat.add_comm (alignedSig b _), h]

/-- The larger aligned significand gives sign and minuend whichever operand it is; equal ones cancel. -/
theorem differencePattern_comm (p : Params) (a b : Word) : differencePattern p a b = differencePattern p b a := by
  simp only [differencePattern, Nat.max_comm (expOf b)]
  generalize alignedSig a (max (expOf a) (expOf b)) = x, alignedSig b (max (expOf a) (expOf b)) = y
  obtain hlt | heq | hgt := Nat.lt_trichotomy x y
  · simp only [Nat.not_le_of_lt hlt, Nat.le_of_lt hlt, Nat.ne_of_lt hlt, Nat.ne_of_gt hlt, if_true, if_false]
  · simp only [heq, if_true]
  · simp only [Nat.not_le_of_lt hgt, Nat.le_of_lt hgt, Nat.ne_of_lt hgt, Nat.ne_of_gt hgt, if_true, if_false]

theorem addReference_comm_of_finiteNonzero (p : Params) {a b : Word} (ha : IsFiniteNonzero a)
    (hb : IsFiniteNonzero b) : addReference p a b = addReference p b a := by
  rw [addReference_of_finiteNonzero p ha hb, addReference_of_finiteNonzero p hb ha]
  by_cases hleft : expOf b + 8 < expOf a
  · rw [if_pos hleft, if_neg (by omega), if_pos hleft]
  by_cases hright : expOf a + 8 < expOf b
  · rw [if_neg hleft, if_pos hright, if_pos hright]
  rw [if_neg hleft, if_neg hright, if_neg hright, if_neg hleft]
  by_cases hsign : signOf a = signOf b
  · rw [if_pos hsign, if_pos hsign.symm, sumPattern_comm p hsign]
  · rw [if_neg hsign, if_neg (Ne.symm hsign), differencePattern_comm]

/-- Settles O36: a zero gives the other operand on both sides, which differ only for the two zeros of R71. -/
theorem addCommutesOnFinite : Obligations.AddCommutesOnFinite := by
  intro a b s ha hb
  have hpos : IsZero 0x0000#16 := by decide
  have hneg : IsZero 0x8000#16 := by decide
  refine ⟨_, _, exec_add_eq_addReference a b s, exec_add_eq_addReference b a s, fun hpair => ?pair,
    fun hother => ?other⟩
  case pair =>
    obtain ⟨rfl, rfl⟩ | ⟨rfl, rfl⟩ := hpair
    · rw [addReference_of_isZero_left _ _ hpos, addReference_of_isZero_left _ _ hneg]
      exact ⟨hneg, hpos, by decide⟩
    · rw [addReference_of_isZero_left _ _ hneg, addReference_of_isZero_left _ _ hpos]
      exact ⟨hpos, hneg, by decide⟩
  case other =>
    by_cases haz : IsZero a
    · by_cases hbz : IsZero b
      · have hsame : b = a := by
          obtain rfl | rfl := eq_of_isZero haz
          · exact (eq_of_isZero hbz).resolve_right fun hb => hother (.inl ⟨rfl, hb⟩)
          · exact (eq_of_isZero hbz).resolve_left fun hb => hother (.inr ⟨rfl, hb⟩)
        rw [hsame]
      · rw [addReference_of_isZero_left _ b haz, addReference_of_isZero_right _ ⟨hb, hbz⟩ haz]
    · by_cases hbz : IsZero b
      · rw [addReference_of_isZero_left _ a hbz, addReference_of_isZero_right _ ⟨ha, haz⟩ hbz]
      · exact addReference_comm_of_finiteNonzero _ ⟨ha, haz⟩ ⟨hb, hbz⟩

/-! ### A pattern and its flip (R83 item 2) -/

theorem signOf_ne_signOf_flipSign (v : Word) : signOf v ≠ signOf (flipSign v) := by
  have := signOf_le_one v
  rw [signOf_flipSign]
  omega

/-- A pattern and its flip have one exponent and one significand, so they cancel exactly (R77). -/
theorem differencePattern_flipSign (p : Params) (x : Word) : differencePattern p x (flipSign x) = 0x0000#16 := by
  have hsig (e : Nat) : alignedSig (flipSign x) e = alignedSig x e := by simp [alignedSig]
  rw [differencePattern]
  simp only [hsig, if_true]

/-- Settles O37: exact cancellation for a finite nonzero pattern, and the clauses of R70 and R71 for the others. -/
theorem addNegationGivesZero : Obligations.AddNegationGivesZero := by
  intro x s
  show (_ → exec (.add x (flipSign x)) s = _) ∧ (_ → exec (.add x (flipSign x)) s = .next { s with r := flipSign x }) ∧
    (_ → exec (.add x (flipSign x)) s = _) ∧ (_ → exec (.add x (flipSign x)) s = _)
  obtain ⟨hnan, -, -, hinfNegInf, -⟩ := addNaNAndInfinityOperands x (flipSign x) s
  have hsign : signOf x ≠ signOf (flipSign x) := signOf_ne_signOf_flipSign x
  refine ⟨fun hx => ?finite, exec_add_of_isZero_left (flipSign x) s, fun hx => ?infinite, hnan⟩
  case finite =>
    have hflip : IsFiniteNonzero (flipSign x) := by
      rwa [IsFiniteNonzero, IsFinite, IsZero, expOf_flipSign, fracOf_flipSign]
    rw [addOppositeSignsDifference x (flipSign x) s hx hflip (by simp) (by simp) hsign, differencePattern_flipSign]
  case infinite => exact hinfNegInf hx (by rwa [IsInf, expOf_flipSign, fracOf_flipSign]) hsign

/-! ### Causes of NaN and infinite results (R83 items 3 to 5) -/

/-- Finite operands give a finite result, or the overflow result of the instance on the same sign and the largest
finite exponent. -/
theorem addReference_of_finite (p : Params) {a b : Word} (ha : IsFinite a) (hb : IsFinite b) :
    IsFinite (addReference p a b) ∨
      (signOf a = signOf b ∧ max (expOf a) (expOf b) = 254 ∧
        ((p.addOverflowResult = .signedInfinity ∧ IsInf (addReference p a b)) ∨
          (p.addOverflowResult = .canonicalNaN ∧ IsNaN (addReference p a b)))) := by
  by_cases haz : IsZero a
  · rw [addReference_of_isZero_left p b haz]
    exact .inl hb
  by_cases hbz : IsZero b
  · rw [addReference_of_isZero_right p ⟨ha, haz⟩ hbz]
    exact .inl ha
  rw [addReference_of_finiteNonzero p ⟨ha, haz⟩ ⟨hb, hbz⟩]
  split_ifs with hleft hright hsign
  · exact .inl ha
  · exact .inl hb
  · exact (sumPattern_cases p ha hb).imp And.left fun hover => ⟨hsign, hover⟩
  · refine .inl ?_
    obtain hzero | hnormal := differencePattern_cases p ha hb
    · exact isFinite_of_isZero hzero
    · unfold IsFinite
      omega

/-- A NaN operand is the result, the first from the left (R70). -/
theorem isNaN_addReference (p : Params) {a b : Word} (h : IsNaN a ∨ IsNaN b) : IsNaN (addReference p a b) := by
  rw [addReference]
  by_cases ha : IsNaN a
  · rwa [if_pos ha]
  · have hb : IsNaN b := h.resolve_left ha
    rw [if_neg ha, if_pos hb, if_pos (not_lt.mpr (Nat.le_of_eq hb.1.symm)), ite_self]
    exact hb

/-- Without a NaN operand, an infinite one gives an infinity, or the canonical NaN for two of opposite signs (R70). -/
theorem isInf_addReference_or (p : Params) {a b : Word} (ha : ¬ IsNaN a) (hb : ¬ IsNaN b) (h : IsInf a ∨ IsInf b) :
    IsInf (addReference p a b) ∨ (IsInf a ∧ IsInf b ∧ signOf a ≠ signOf b) := by
  rw [addReference, if_neg ha]
  by_cases hai : IsInf a
  · rw [if_pos hai, if_neg hb]
    by_cases hopp : IsInf b ∧ signOf a ≠ signOf b
    · exact .inr ⟨hai, hopp⟩
    · rw [if_neg hopp]
      exact .inl hai
  · have hbi : IsInf b := h.resolve_left hai
    rw [if_neg hai, if_pos (not_lt.mpr (Nat.le_of_eq hbi.1.symm))]
    exact .inl hbi

/-- Settles O38: by the classes of the operands, the overflow of `addReference_of_finite` for two finite ones. -/
theorem addSpecialResultsHaveCauses : Obligations.AddSpecialResultsHaveCauses := by
  intro a b s
  refine ⟨_, exec_add_eq_addReference a b s, isNaN_addReference s.params, fun hnan => ?nan, fun hinf => ?inf⟩
  case nan =>
    by_cases han : IsNaN a
    · exact .inl han
    by_cases hbn : IsNaN b
    · exact .inr (.inl hbn)
    by_cases hsome : IsInf a ∨ IsInf b
    · exact .inr (.inr (.inl ((isInf_addReference_or s.params han hbn hsome).resolve_left (not_isInf_of_isNaN hnan))))
    · obtain ⟨hai, hbi⟩ := not_or.mp hsome
      have haf : IsFinite a := isFinite_of_not_isNaN_of_not_isInf han hai
      have hbf : IsFinite b := isFinite_of_not_isNaN_of_not_isInf hbn hbi
      obtain hfin | ⟨hsign, hmax, ⟨-, hinf⟩ | ⟨hp, -⟩⟩ := addReference_of_finite s.params haf hbf
      · exact absurd hnan (not_isNaN_of_isFinite hfin)
      · exact absurd hinf (not_isInf_of_isNaN hnan)
      · exact .inr (.inr (.inr ⟨hp, haf, hbf, hsign, hmax⟩))
  case inf =>
    have hno : ¬ (IsNaN a ∨ IsNaN b) := fun h => not_isNaN_of_isInf hinf (isNaN_addReference s.params h)
    obtain ⟨han, hbn⟩ := not_or.mp hno
    by_cases hai : IsInf a
    · exact .inl hai
    by_cases hbi : IsInf b
    · exact .inr (.inl hbi)
    have haf : IsFinite a := isFinite_of_not_isNaN_of_not_isInf han hai
    have hbf : IsFinite b := isFinite_of_not_isNaN_of_not_isInf hbn hbi
    obtain hfin | ⟨hsign, hmax, ⟨hp, -⟩ | ⟨-, hnan⟩⟩ := addReference_of_finite s.params haf hbf
    · exact absurd hinf (not_isInf_of_isFinite hfin)
    · exact .inr (.inr ⟨hp, haf, hbf, hsign, hmax⟩)
    · exact absurd hinf (not_isInf_of_isNaN hnan)

end Sys2Proof.Proofs
end

section
/-! What the spec infers for MUL in R93 and R90 (43_multiplier.md): it commutes, 1.0 is neutral as far as the denormal
path of the instance allows, and under Significand8 it is the exact product rounded toward zero. -/

namespace Sys2Proof.Proofs

open Sys2Proof.Machine Sys2Proof.Laws

/-! ### Commutation (R93 item 1) -/

theorem signXor_comm (a b : Word) : signXor a b = signXor b a := by
  rw [signXor, signXor, Nat.add_comm]

theorem signXor_le_one (a b : Word) : signXor a b ≤ 1 := by
  unfold signXor
  omega

theorem productPattern_comm (p : Params) (a b : Word) : productPattern p a b = productPattern p b a := by
  simp only [productPattern, Nat.mul_comm (normSigOf b), Int.add_comm (normExpOf b), signXor_comm b]

theorem mulReference_comm (p : Params) {a b : Word} (ha : ¬ IsNaN a) (hb : ¬ IsNaN b) :
    mulReference p a b = mulReference p b a := by
  have hcross : (IsInf a ∧ IsZero b) ∨ (IsZero a ∧ IsInf b) ↔ (IsInf b ∧ IsZero a) ∨ (IsZero b ∧ IsInf a) := by
    rw [or_comm, and_comm (a := IsZero a), and_comm (a := IsInf a)]
  rw [mulReference, mulReference, if_neg ha, if_neg hb, if_neg hb, if_neg ha, if_congr hcross rfl rfl,
    if_congr (or_comm (a := IsInf a)) rfl rfl, if_congr (or_comm (a := IsZero a)) rfl rfl, signXor_comm a,
    productPattern_comm p a]

/-- Settles O42: the reference is symmetric once no operand is a NaN. -/
theorem mulCommutes : Obligations.MulCommutes := by
  intro a b s ha hb
  refine ⟨_, exec_mul_eq_mulReference a b s, ?_⟩
  rw [exec_mul_eq_mulReference, mulReference_comm s.params ha hb]

/-! ### The neutral element (R93 item 2) -/

/-- The fields of 1.0. -/
theorem expOf_one : expOf 0x3F80#16 = 127 := by decide
theorem normSigOf_one : normSigOf 0x3F80#16 = 128 := by decide
theorem normExpOf_one : normExpOf 0x3F80#16 = 127 := by decide

theorem signXor_one (x : Word) : signXor x 0x3F80#16 = signOf x := by
  have hone : signOf 0x3F80#16 = 0 := by decide
  have := signOf_le_one x
  rw [signXor, hone]
  omega

theorem isFiniteNonzero_one : IsFiniteNonzero 0x3F80#16 := by decide

/-- A pattern from its sign, the exponent and the mantissa it is known to have. -/
theorem packed_signOf {x : Word} {e m : Nat} (he : expOf x = e) (hm : fracOf x = m) :
    packed (signOf x) e m = x := by
  rw [← he, ← hm, packed_fields]

theorem infOf_signOf {x : Word} (h : IsInf x) : infOf (signOf x) = x := packed_signOf h.1 h.2

theorem zeroOf_signOf {x : Word} (h : IsZero x) : zeroOf (signOf x) = x := packed_signOf h.1 h.2

/-- Times 1.0 nothing carries: the significand and the exponent of `x` are packed again. -/
theorem productPattern_one (p : Params) {x : Word} (hx : IsFiniteNonzero x) :
    productPattern p x 0x3F80#16 =
      if normExpOf x ≤ 0 then
        packed (signOf x) 0
          ((if p.mulSubnormalSource = .significand8 then normSigOf x else normSigOf x % 128) /
            2 ^ (1 - normExpOf x).toNat)
      else packed (signOf x) (normExpOf x).toNat (normSigOf x % 128) := by
  obtain ⟨-, hsig⟩ := normSigOf_bounds hx
  obtain ⟨hlow, hhigh⟩ := normExpOf_bounds hx.1
  have hcarry : ¬ 0x8000 ≤ normSigOf x * 128 := by omega
  have hwindow : normSigOf x * 128 / 128 = normSigOf x := Nat.mul_div_cancel _ (by decide)
  have hexp : normExpOf x + 127 - 127 + 0 = normExpOf x := by omega
  simp only [productPattern, normSigOf_one, normExpOf_one, signXor_one, if_neg hcarry, hwindow, hexp]
  rw [if_neg (by omega), if_neg (by omega)]

theorem productPattern_one_of_normal (p : Params) {x : Word} (hx : IsNormal x) :
    productPattern p x 0x3F80#16 = x := by
  have hnonzero : expOf x ≠ 0 := by omega
  have hexp : normExpOf x = expOf x := if_neg hnonzero
  have hsig : normSigOf x % 128 = fracOf x := by
    have := fracOf_le x
    rw [normSigOf, if_neg hnonzero]
    omega
  rw [productPattern_one p (isFiniteNonzero_of_normal hx), hexp, if_neg (by omega), hsig,
    Int.toNat_natCast, packed_fields]

/-- A denormal is shifted back by the places it was normalised by. -/
theorem productPattern_one_of_denormal (p : Params) {x : Word} (hx : IsDenormal x) :
    productPattern p x 0x3F80#16 =
      packed (signOf x) 0
        ((if p.mulSubnormalSource = .significand8 then normSigOf x else normSigOf x % 128) /
          2 ^ leftShift8 (fracOf x)) ∧
      normSigOf x = fracOf x * 2 ^ leftShift8 (fracOf x) ∧ 1 ≤ leftShift8 (fracOf x) := by
  have hpos : 0 < fracOf x := Nat.pos_of_ne_zero hx.2
  have hfrac : fracOf x ≤ 127 := fracOf_le x
  have hsig : normSigOf x = fracOf x * 2 ^ leftShift8 (fracOf x) := if_pos hx.1
  have hexp : normExpOf x = 1 - (leftShift8 (fracOf x) : Int) := if_pos hx.1
  obtain ⟨hlow, -⟩ := mul_two_pow_leftShift8_bounds hpos (by omega)
  have hshift : 1 ≤ leftShift8 (fracOf x) := by
    by_contra hnone
    rw [Nat.lt_one_iff.mp (Nat.lt_of_not_le hnone)] at hlow
    omega
  have hcount : (1 - normExpOf x).toNat = leftShift8 (fracOf x) := by omega
  rw [productPattern_one p (isFiniteNonzero_of_denormal hx), if_pos (by omega), hcount]
  exact ⟨rfl, hsig, hshift⟩

/-- The full significand comes back exactly. -/
theorem productPattern_one_of_denormal_significand8 {p : Params} {x : Word} (hx : IsDenormal x)
    (hp : p.mulSubnormalSource = .significand8) : productPattern p x 0x3F80#16 = x := by
  obtain ⟨hpattern, hsig, -⟩ := productPattern_one_of_denormal p hx
  rw [hpattern, if_pos hp, hsig, Nat.mul_div_cancel _ (Nat.two_pow_pos _),
    packed_signOf hx.1 rfl]

/-- Without bit 7 the significand comes back too small. -/
theorem productPattern_one_of_denormal_fraction7 {p : Params} {x : Word} (hx : IsDenormal x)
    (hp : p.mulSubnormalSource = .fraction7) : productPattern p x 0x3F80#16 ≠ x := by
  obtain ⟨hpattern, hsig, -⟩ := productPattern_one_of_denormal p hx
  obtain ⟨hlow, -⟩ := normSigOf_bounds (isFiniteNonzero_of_denormal hx)
  have hfrac : fracOf x ≤ 127 := fracOf_le x
  have hless : normSigOf x % 128 / 2 ^ leftShift8 (fracOf x) < fracOf x := by
    rw [Nat.div_lt_iff_lt_mul (Nat.two_pow_pos _), ← hsig]
    omega
  intro heq
  have hsame : normSigOf x % 128 / 2 ^ leftShift8 (fracOf x) = fracOf x := by
    rw [← fracOf_packed (s := signOf x) (e := 0) (m := normSigOf x % 128 / 2 ^ leftShift8 (fracOf x)) (by omega)]
    rw [hpattern, hp, if_neg (by decide)] at heq
    rw [heq]
  omega

/-- Times 1.0 every pattern that is not a denormal comes back, its class preserved by the special cases of R85. -/
theorem mulReference_one_of_not_denormal (p : Params) {x : Word} (hx : ¬ IsDenormal x) :
    mulReference p x 0x3F80#16 = x := by
  obtain ⟨hone, honez⟩ := isFiniteNonzero_one
  have hnan : ¬ IsNaN 0x3F80#16 := not_isNaN_of_isFinite hone
  have hinf : ¬ IsInf 0x3F80#16 := not_isInf_of_isFinite hone
  rw [mulReference]
  by_cases hxn : IsNaN x
  · rw [if_pos hxn]
  rw [if_neg hxn, if_neg hnan, if_neg (not_or_intro (honez ·.2) (hinf ·.2))]
  by_cases hxi : IsInf x
  · rw [if_pos (.inl hxi), signXor_one, infOf_signOf hxi]
  rw [if_neg (not_or_intro hxi hinf)]
  by_cases hxz : IsZero x
  · rw [if_pos (.inl hxz), signXor_one, zeroOf_signOf hxz]
  have hxf : IsFinite x := isFinite_of_not_isNaN_of_not_isInf hxn hxi
  rw [if_neg (not_or_intro hxz honez), productPattern_one_of_normal]
  exact ((isFinite_iff_zero_or_denormal_or_normal x).mp hxf).resolve_left hxz |>.resolve_left hx

theorem mulReference_of_finiteNonzero (p : Params) {a b : Word} (ha : IsFiniteNonzero a)
    (hb : IsFiniteNonzero b) : mulReference p a b = productPattern p a b := by
  rw [← multiplier_eq_mulReference, multiplier_of_finiteNonzero p ha hb]

/-- Settles O43: the instances differ on denormals only. -/
theorem mulByOneIsIdentity : Obligations.MulByOneIsIdentity := by
  intro x s
  refine ⟨fun hp => ?significand8, fun hp => ⟨_, exec_mul_eq_mulReference x _ s, ?fraction7⟩⟩
  case significand8 =>
    rw [exec_mul_eq_mulReference]
    by_cases hx : IsDenormal x
    · rw [mulReference_of_finiteNonzero _ (isFiniteNonzero_of_denormal hx) isFiniteNonzero_one,
        productPattern_one_of_denormal_significand8 hx hp]
    · rw [mulReference_one_of_not_denormal _ hx]
  case fraction7 =>
    refine ⟨fun heq hx => ?_, mulReference_one_of_not_denormal s.params⟩
    rw [mulReference_of_finiteNonzero _ (isFiniteNonzero_of_denormal hx) isFiniteNonzero_one] at heq
    exact productPattern_one_of_denormal_fraction7 hx hp heq

end Sys2Proof.Proofs
end

section
/-! MUL as the exact product rounded toward zero (43_multiplier.md R90, 41_normalizer.md R67), in the scaled integers of
10_state.md R22: a finite pattern has `scaledOf` units of 2^-133. -/

namespace Sys2Proof.Proofs

open Sys2Proof.Machine Sys2Proof.Laws

/-! ### Scaled magnitudes -/

theorem scaledOf_of_isZero {v : Word} (h : IsZero v) : scaledOf v = 0 := by
  rw [scaledOf, sigOf, if_pos h.1, h.2, Nat.zero_mul]

/-- A pattern packed with exponent 0: one unit is the denormal grid. -/
theorem scaledOf_packed_denormal {s m : Nat} (hm : m ≤ 127) : scaledOf (packed s 0 m) = m := by
  have hexp : expOf (packed s 0 m) = 0 := expOf_packed (by omega) hm
  rw [scaledOf, sigOf, if_pos hexp, fracOf_packed hm, hexp]
  exact Nat.mul_one m

theorem ulpOf_packed_denormal {s m : Nat} (hm : m ≤ 127) : ulpOf (packed s 0 m) = 1 := by
  rw [ulpOf, expOf_packed (by omega) hm]
  rfl

/-- A normal pattern packed from an 8-bit significand with bit 7 set. -/
theorem scaledOf_packed_normal {s e sig : Nat} (he : 1 ≤ e) (he' : e ≤ 255) (hlow : 128 ≤ sig) (hhigh : sig < 256) :
    scaledOf (packed s e (sig % 128)) = sig * 2 ^ (e - 1) := by
  have hfrac : sig % 128 ≤ 127 := by omega
  have hsig : 128 + sig % 128 = sig := by omega
  have hmax : max 1 e = e := Nat.max_eq_right he
  rw [scaledOf, sigOf, expOf_packed he' hfrac, fracOf_packed hfrac, if_neg (by omega), hsig, hmax]

theorem ulpOf_packed_normal {s e m : Nat} (he : 1 ≤ e) (he' : e ≤ 255) (hm : m ≤ 127) :
    ulpOf (packed s e m) = 2 ^ (e - 1) := by
  rw [ulpOf, expOf_packed he' hm, Nat.max_eq_right he]

/-- The normalised significand and exponent of a finite nonzero pattern stand for its magnitude: the exponent is at
least -6, so 7 more places make the shift a whole number. -/
theorem normSigOf_mul_two_pow {v : Word} (h : IsFiniteNonzero v) :
    normSigOf v * 2 ^ (normExpOf v + 6).toNat = scaledOf v * 2 ^ 7 := by
  by_cases hexp : expOf v = 0
  · have hshift : leftShift8 (fracOf v) ≤ 7 := leftShift8_le _
    have hcount : (1 - (leftShift8 (fracOf v) : Int) + 6).toNat = 7 - leftShift8 (fracOf v) := by omega
    rw [normSigOf, normExpOf, if_pos hexp, if_pos hexp, hcount, scaledOf, sigOf, if_pos hexp, hexp, Nat.mul_assoc,
      ← Nat.pow_add, Nat.add_sub_cancel' hshift]
    simp
  · have hcount : ((expOf v : Int) + 6).toNat = expOf v - 1 + 7 := by omega
    have hmax : max 1 (expOf v) = expOf v := by omega
    rw [normSigOf, normExpOf, if_neg hexp, if_neg hexp, hcount, scaledOf, sigOf, if_neg hexp, hmax, Nat.pow_add,
      Nat.mul_assoc]

/-! ### Truncation -/

/-- `v` is the truncation to its own grid of the magnitude `n / d`. -/
def Truncates (v : Word) (n d : Nat) : Prop :=
  IsFinite v ∧ scaledOf v * d ≤ n ∧ n < (scaledOf v + ulpOf v) * d

/-- Truncation does not depend on the unit the magnitude is written in. -/
theorem truncates_mul_iff {v : Word} {n d k : Nat} (hk : 0 < k) :
    Truncates v (n * k) (d * k) ↔ Truncates v n d := by
  rw [Truncates, Truncates, ← Nat.mul_assoc, ← Nat.mul_assoc, Nat.mul_le_mul_right_iff hk, Nat.mul_lt_mul_right hk]

/-- Dropping the low `t` bits of `n` rounds it down to a multiple of `2 ^ t`. -/
theorem div_two_pow_bounds (n t : Nat) : n / 2 ^ t * 2 ^ t ≤ n ∧ n < (n / 2 ^ t + 1) * 2 ^ t :=
  ⟨Nat.div_mul_le_self _ _, Nat.lt_mul_of_div_lt (Nat.lt_succ_self _) (Nat.two_pow_pos t)⟩

/-- A pattern of exponent 0 is on the denormal grid. -/
theorem truncates_packed_denormal {s m n d : Nat} (hm : m ≤ 127) (hlow : m * d ≤ n) (hhigh : n < (m + 1) * d) :
    Truncates (packed s 0 m) n d := by
  refine ⟨?_, ?_, ?_⟩
  · rw [IsFinite, expOf_packed (by omega) hm]
    decide
  · rwa [scaledOf_packed_denormal hm]
  · rwa [scaledOf_packed_denormal hm, ulpOf_packed_denormal hm]

theorem truncates_zeroOf {s n d : Nat} (h : n < d) : Truncates (zeroOf s) n d :=
  truncates_packed_denormal (Nat.zero_le _) (by omega) (by omega)

/-- A normal pattern is on the grid of its exponent. -/
theorem truncates_packed_normal {s e sig n d : Nat} (he : 1 ≤ e) (he' : e ≤ 254) (hlow : 128 ≤ sig)
    (hhigh : sig < 256) (hn : sig * 2 ^ (e - 1) * d ≤ n) (hn' : n < (sig + 1) * 2 ^ (e - 1) * d) :
    Truncates (packed s e (sig % 128)) n d := by
  have hfrac : sig % 128 ≤ 127 := by omega
  refine ⟨?_, ?_, ?_⟩
  · rw [IsFinite, expOf_packed (by omega) hfrac]
    omega
  · rwa [scaledOf_packed_normal he (by omega) hlow hhigh]
  · rwa [scaledOf_packed_normal he (by omega) hlow hhigh, ulpOf_packed_normal he (by omega) hfrac, ← Nat.succ_mul]

/-! ### The product of two normalised significands

`n` is the product, `c` its carry, so that its top bit is bit `14 + c`, and `P` the places that its exponent is above
the least one, -139 (41_normalizer.md R69). -/

/-- The magnitude of a product reaches a power of two exactly when its exponent does. -/
theorem two_pow_le_product_iff {n c P K : Nat} (hlow : 2 ^ (14 + c) ≤ n) (hhigh : n < 2 ^ (15 + c)) :
    2 ^ (14 + K) ≤ n * 2 ^ P ↔ K ≤ P + c := by
  constructor
  · intro hover
    by_contra hsmall
    have : n * 2 ^ P < 2 ^ (14 + K) :=
      calc n * 2 ^ P < 2 ^ (15 + c) * 2 ^ P := Nat.mul_lt_mul_of_pos_right hhigh (Nat.two_pow_pos P)
        _ = 2 ^ (15 + c + P) := (Nat.pow_add ..).symm
        _ ≤ 2 ^ (14 + K) := Nat.pow_le_pow_right (by decide) (by omega)
    exact Nat.not_le_of_lt this hover
  · intro hplaces
    calc 2 ^ (14 + K) ≤ 2 ^ (14 + c + P) := Nat.pow_le_pow_right (by decide) (by omega)
      _ = 2 ^ (14 + c) * 2 ^ P := Nat.pow_add ..
      _ ≤ n * 2 ^ P := Nat.mul_le_mul_right _ hlow

/-- Below the denormal grid a product is flushed to zero (R89). -/
theorem truncates_product_flush {s n c P : Nat} (hhigh : n < 2 ^ (15 + c)) (hplaces : P + c < 133) :
    Truncates (zeroOf s) (n * 2 ^ P) (2 ^ 147) := by
  apply truncates_zeroOf
  calc n * 2 ^ P < 2 ^ (15 + c) * 2 ^ P := Nat.mul_lt_mul_of_pos_right hhigh (Nat.two_pow_pos P)
    _ = 2 ^ (15 + c + P) := (Nat.pow_add ..).symm
    _ ≤ 2 ^ 147 := Nat.pow_le_pow_right (by decide) (by omega)

/-- On the denormal grid all but the top bits of the product are dropped (R90). -/
theorem truncates_product_denormal {s n c P : Nat} (hhigh : n < 2 ^ (15 + c)) (hplaces : P + c ≤ 139) :
    Truncates (packed s 0 (n / 2 ^ (147 - P))) (n * 2 ^ P) (2 ^ 147) := by
  have hpow : 2 ^ 147 = 2 ^ (147 - P) * 2 ^ P := by
    rw [← Nat.pow_add]
    congr 1
    omega
  have hfits : n / 2 ^ (147 - P) < 2 ^ 7 := by
    rw [Nat.div_lt_iff_lt_mul (Nat.two_pow_pos _), ← Nat.pow_add]
    exact hhigh.trans_le (Nat.pow_le_pow_right (by decide) (by omega))
  obtain ⟨hfloor, hnext⟩ := div_two_pow_bounds n (147 - P)
  rw [hpow, truncates_mul_iff (Nat.two_pow_pos P)]
  exact truncates_packed_denormal (Nat.le_of_lt_succ hfits) hfloor hnext

/-- In the normal range the 8 bits of the window are kept (R66, R91). -/
theorem truncates_product_normal {s n c P e : Nat} (hlow : 2 ^ (14 + c) ≤ n) (hhigh : n < 2 ^ (15 + c))
    (he : e + 139 = P + c) (hpos : 1 ≤ e) (hmax : e ≤ 254) :
    Truncates (packed s e (n / 2 ^ (7 + c) % 128)) (n * 2 ^ P) (2 ^ 147) := by
  have hbit7 : 128 ≤ n / 2 ^ (7 + c) := by
    rw [Nat.le_div_iff_mul_le (Nat.two_pow_pos _)]
    calc 128 * 2 ^ (7 + c) = 2 ^ (14 + c) := by rw [show 128 = 2 ^ 7 by rfl, ← Nat.pow_add]; congr 1; omega
      _ ≤ n := hlow
  have hwindow : n / 2 ^ (7 + c) < 256 := by
    rw [Nat.div_lt_iff_lt_mul (Nat.two_pow_pos _)]
    calc n < 2 ^ (15 + c) := hhigh
      _ = 256 * 2 ^ (7 + c) := by rw [show 256 = 2 ^ 8 by rfl, ← Nat.pow_add]; congr 1; omega
  have hgrid (m : Nat) : m * 2 ^ (e - 1) * 2 ^ 147 = m * 2 ^ (7 + c) * 2 ^ P := by
    rw [Nat.mul_assoc, Nat.mul_assoc, ← Nat.pow_add, ← Nat.pow_add]
    congr 2
    omega
  obtain ⟨hfloor, hnext⟩ := div_two_pow_bounds n (7 + c)
  refine truncates_packed_normal hpos hmax hbit7 hwindow ?_ ?_
  · rw [hgrid]
    exact Nat.mul_le_mul_right _ hfloor
  · rw [hgrid]
    exact Nat.mul_lt_mul_of_pos_right hnext (Nat.two_pow_pos P)

/-! ### MUL -/

/-- The places of a product's exponent above -139, before the carry. -/
def productPlaces (a b : Word) : Nat := (normExpOf a + 6).toNat + (normExpOf b + 6).toNat

/-- The product of the normalised significands stands for the exact product. -/
theorem normSigOf_mul_eq_scaledOf_mul {a b : Word} (ha : IsFiniteNonzero a) (hb : IsFiniteNonzero b) :
    normSigOf a * normSigOf b * 2 ^ productPlaces a b = scaledOf a * scaledOf b * 2 ^ 14 := by
  calc normSigOf a * normSigOf b * 2 ^ productPlaces a b
      = (normSigOf a * 2 ^ (normExpOf a + 6).toNat) * (normSigOf b * 2 ^ (normExpOf b + 6).toNat) := by
        rw [productPlaces, Nat.pow_add]
        ring
    _ = scaledOf a * scaledOf b * 2 ^ 14 := by
        rw [normSigOf_mul_two_pow ha, normSigOf_mul_two_pow hb]
        ring

/-- A power of two written as a product of three, in the unit of the normalised significands. -/
theorem two_pow_mul_le_iff (i j k x : Nat) :
    2 ^ i * 2 ^ j * 2 ^ k ≤ x ↔ 2 ^ (14 + (i + j + k)) ≤ x * 2 ^ 14 := by
  rw [Nat.add_comm 14, Nat.pow_add, Nat.pow_add, Nat.pow_add, Nat.mul_le_mul_right_iff (Nat.two_pow_pos 14)]

/-- The carry of a product of two significands names its top bit. -/
theorem exists_carry {n : Nat} (hlow : 0x4000 ≤ n) (hhigh : n ≤ 0xFE01) :
    ∃ c : Nat, 2 ^ (14 + c) ≤ n ∧ n < 2 ^ (15 + c) ∧ ((if 0x8000 ≤ n then 1 else 0 : Int) = c) ∧
      (if 0x8000 ≤ n then n / 256 else n / 128) = n / 2 ^ (7 + c) := by
  by_cases hcarry : 0x8000 ≤ n
  · exact ⟨1, by omega, by omega, if_pos hcarry, if_pos hcarry⟩
  · exact ⟨0, by omega, by omega, if_neg hcarry, if_neg hcarry⟩

/-- Under Significand8 a product is infinite from 2^128 on, and truncates the exact product below it. -/
theorem productPattern_truncates {p : Params} (hp : p.mulSubnormalSource = .significand8) {a b : Word}
    (ha : IsFiniteNonzero a) (hb : IsFiniteNonzero b) :
    if 2 ^ 128 * 2 ^ 133 * 2 ^ 133 ≤ scaledOf a * scaledOf b then productPattern p a b = infOf (signXor a b)
    else Truncates (productPattern p a b) (scaledOf a * scaledOf b) (2 ^ 133) := by
  obtain ⟨hmin, hmax⟩ := normSigOf_mul_bounds ha hb
  obtain ⟨c, hlow, hhigh, hcarry, hsig⟩ := exists_carry hmin hmax
  obtain ⟨halow, -⟩ := normExpOf_bounds ha.1
  obtain ⟨hblow, -⟩ := normExpOf_bounds hb.1
  have hexact := normSigOf_mul_eq_scaledOf_mul ha hb
  have hre : normExpOf a + normExpOf b - 127 + (c : Int) = (productPlaces a b : Int) + c - 139 := by
    rw [productPlaces]
    omega
  have hover : 2 ^ 128 * 2 ^ 133 * 2 ^ 133 ≤ scaledOf a * scaledOf b ↔
      128 + 133 + 133 ≤ productPlaces a b + c := by
    rw [two_pow_mul_le_iff, ← hexact]
    exact two_pow_le_product_iff hlow hhigh
  have hunit : Truncates (productPattern p a b) (scaledOf a * scaledOf b) (2 ^ 133) ↔
      Truncates (productPattern p a b) (normSigOf a * normSigOf b * 2 ^ productPlaces a b) (2 ^ 147) := by
    rw [hexact, Nat.pow_add 2 133 14, truncates_mul_iff (Nat.two_pow_pos 14)]
  rw [hunit]
  simp only [productPattern, hcarry, hsig, hre, if_pos hp]
  generalize normSigOf a * normSigOf b = n at hlow hhigh ⊢
  generalize productPlaces a b = P at hover ⊢
  by_cases hinf : 128 + 133 + 133 ≤ P + c
  · rw [if_pos (hover.mpr hinf), if_pos (by omega)]
  rw [if_neg (mt hover.mp hinf), if_neg (by omega)]
  by_cases hflush : P + c < 133
  · rw [if_pos (by omega)]
    exact truncates_product_flush hhigh hflush
  rw [if_neg (by omega)]
  by_cases hden : P + c ≤ 139
  · have hshift : 7 + c + (1 - ((P : Int) + c - 139)).toNat = 147 - P := by omega
    rw [if_pos (by omega), Nat.div_div_eq_div_mul, ← Nat.pow_add, hshift]
    exact truncates_product_denormal hhigh hden
  · rw [if_neg (by omega)]
    exact truncates_product_normal hlow hhigh (by omega) (by omega) (by omega)

theorem mulReference_of_isZero (p : Params) {a b : Word} (ha : IsFinite a) (hb : IsFinite b)
    (hzero : IsZero a ∨ IsZero b) : mulReference p a b = zeroOf (signXor a b) := by
  rw [← multiplier_eq_mulReference,
    multiplier_of_special ((mulSpecial_of_finite ha hb).trans (if_pos hzero))]

/-- The product with a zero is a zero. -/
theorem scaledOf_mul_eq_zero {a b : Word} (h : IsZero a ∨ IsZero b) : scaledOf a * scaledOf b = 0 := by
  obtain ha | hb := h
  · rw [scaledOf_of_isZero ha, Nat.zero_mul]
  · rw [scaledOf_of_isZero hb, Nat.mul_zero]

/-! ### Signs (R84) -/

/-- A product is packed with the XOR sign whatever its exponent is. -/
theorem signOf_productPattern (p : Params) {a b : Word} (ha : IsFiniteNonzero a) (hb : IsFiniteNonzero b) :
    signOf (productPattern p a b) = signXor a b := by
  have hsign : signXor a b ≤ 1 := signXor_le_one a b
  obtain ⟨-, hmax⟩ := normSigOf_mul_bounds ha hb
  have hsig := productWindow_le hmax
  unfold productPattern
  extract_lets n sig re
  split_ifs with hover hflush hden hp
  · exact signOf_infOf hsign
  · exact signOf_zeroOf hsign
  · exact signOf_packed hsign (by omega) (Nat.le_of_lt_succ (div_two_pow_lt_128 hsig (by omega)))
  · exact signOf_packed hsign (by omega)
      (Nat.le_of_lt_succ (div_two_pow_lt_128 ((Nat.mod_le _ _).trans hsig) (by omega)))
  · exact signOf_packed hsign (by omega) (by omega)

/-- Settles O44: `productPattern_truncates`, and the zero product of R85. -/
theorem mulIsTruncatedExactProduct : Obligations.MulIsTruncatedExactProduct := by
  intro a b s ha hb hp
  have hsign : signXor a b ≤ 1 := signXor_le_one a b
  refine ⟨_, exec_mul_eq_mulReference a b s, ?_⟩
  by_cases hzero : IsZero a ∨ IsZero b
  · have hbound : 0 < 2 ^ 128 * 2 ^ 133 * 2 ^ 133 :=
      Nat.mul_pos (Nat.mul_pos (Nat.two_pow_pos _) (Nat.two_pow_pos _)) (Nat.two_pow_pos _)
    rw [mulReference_of_isZero _ ha hb hzero, scaledOf_mul_eq_zero hzero]
    exact ⟨signOf_zeroOf hsign, fun hover => absurd hover (Nat.not_le_of_lt hbound),
      fun _ => truncates_zeroOf (Nat.two_pow_pos 133)⟩
  · obtain ⟨haz, hbz⟩ := not_or.mp hzero
    have htrunc := productPattern_truncates hp ⟨ha, haz⟩ ⟨hb, hbz⟩
    rw [mulReference_of_finiteNonzero _ ⟨ha, haz⟩ ⟨hb, hbz⟩]
    refine ⟨signOf_productPattern _ ⟨ha, haz⟩ ⟨hb, hbz⟩, fun hover => ?_, fun hbelow => ?_⟩
    · rw [if_pos hover] at htrunc
      rw [htrunc]
      exact ⟨expOf_infOf _, fracOf_infOf _⟩
    · rwa [if_neg (Nat.not_le_of_lt hbelow)] at htrunc

end Sys2Proof.Proofs
end

section
/-! What the spec infers for DIV in R104 and R99 (44_divider.md): a pattern by itself and by 1.0, its NaN results, and,
under ValueCorrect and without saturation, the exact quotient rounded toward zero. -/

namespace Sys2Proof.Proofs

open Sys2Proof.Machine Sys2Proof.Laws

/-! ### The result of a finite quotient -/

/-- A quotient has the XOR sign and is a zero, an infinity or a normal pattern (R94, R104 item 3). -/
theorem quotientPattern_cases (p : Params) (a b : Word) :
    signOf (quotientPattern p a b) = signXor a b ∧
      (IsZero (quotientPattern p a b) ∨ IsInf (quotientPattern p a b) ∨ IsNormal (quotientPattern p a b)) := by
  have hsign : signXor a b ≤ 1 := signXor_le_one a b
  unfold quotientPattern
  extract_lets q k c re
  split_ifs with hover hflush
  · exact ⟨signOf_infOf hsign, .inr (.inl ⟨expOf_infOf _, fracOf_infOf _⟩)⟩
  · exact ⟨signOf_zeroOf hsign, .inl ⟨expOf_zeroOf _, fracOf_zeroOf _⟩⟩
  · refine ⟨signOf_packed hsign (by omega) (by omega), .inr (.inr ?_)⟩
    rw [IsNormal, expOf_packed (by omega) (by omega)]
    omega

theorem not_isNaN_quotientPattern (p : Params) (a b : Word) : ¬ IsNaN (quotientPattern p a b) := by
  obtain ⟨-, hzero | hinf | hnormal⟩ := quotientPattern_cases p a b
  · exact not_isNaN_of_isZero hzero
  · exact not_isNaN_of_isInf hinf
  · omega

/-! ### By itself and by 1.0 (R104 items 1 and 4) -/

/-- An exact quotient `q` that fits 16 bits: the saturation is not reached. -/
theorem saturating_quotient_of_mul {x y q : Nat} (hy : 0 < y) (hq : x * 2 ^ 15 = q * y) (hfits : q ≤ 0xFFFF) :
    min (x * 2 ^ 15 / y) 0xFFFF = q := by
  rw [hq, Nat.mul_div_cancel _ hy, Nat.min_eq_left hfits]

/-- The quotient of equal significands is 2^15, which needs no shift, and the denormal corrections cancel. -/
theorem quotientPattern_self (p : Params) {x : Word} (hx : IsFiniteNonzero x) :
    quotientPattern p x x = 0x3F80#16 := by
  have hpos : 0 < sigOf x := sigOf_pos hx.2
  have hquot : min (sigOf x * 2 ^ 15 / sigOf x) 0xFFFF = 0x8000 :=
    saturating_quotient_of_mul hpos (Nat.mul_comm _ _) (by decide)
  have hshift : leftShift16 0x8000 = 0 := by decide
  have hsign : signXor x x = 0 := by
    unfold signXor
    omega
  simp only [quotientPattern, hquot, hshift, hsign, sub_self, neg_zero, ite_self]
  decide

/-- Settles O49: `quotientPattern_self`. -/
theorem divBySelfIsOne : Obligations.DivBySelfIsOne := by
  intro x s hx
  rw [divFiniteQuotient x x s hx hx, quotientPattern_self s.params hx]

/-- By 1.0 the significand comes out in the high byte, and only a denormal is short of bit 15. -/
theorem quotientPattern_one (p : Params) (x : Word) :
    quotientPattern p x 0x3F80#16 =
      let k := leftShift16 (sigOf x * 256)
      let c : Int := if expOf x = 0 then 1 else 0
      let re : Int := (expOf x : Int) + (if p.divDenormAdj = .valueCorrect then c else -c) - k
      if 255 ≤ re then infOf (signOf x)
      else if re ≤ 0 then zeroOf (signOf x)
      else packed (signOf x) re.toNat (sigOf x * 256 * 2 ^ k / 256 % 128) := by
  have hsig : sigOf 0x3F80#16 = 128 := by decide
  have hle : sigOf x ≤ 255 := sigOf_le x
  have hquot : min (sigOf x * 2 ^ 15 / 128) 0xFFFF = sigOf x * 256 :=
    saturating_quotient_of_mul (by decide) (by omega) (by omega)
  have hnorm : ¬ 127 = 0 := by decide
  have hbias : (expOf x : Int) - ((127 : Nat) : Int) + 127 = expOf x := by omega
  simp only [quotientPattern, hsig, hquot, expOf_one, if_neg hnorm, signXor_one, hbias, sub_zero]

theorem quotientPattern_one_of_normal (p : Params) {x : Word} (hx : IsNormal x) :
    quotientPattern p x 0x3F80#16 = x := by
  have hfrac : fracOf x ≤ 127 := fracOf_le x
  have hnonzero : expOf x ≠ 0 := by omega
  have hsig : sigOf x = 128 + fracOf x := if_neg hnonzero
  have hsize : (sigOf x * 256).size = 16 := size_eq_succ_of_two_pow_le (i := 15) (by omega) (by omega)
  have hshift : leftShift16 (sigOf x * 256) = 0 := by
    rw [leftShift16_eq_sub_size (by omega), hsize]
  have hmant : sigOf x * 256 * 2 ^ 0 / 256 % 128 = fracOf x := by omega
  have hexp : (expOf x : Int) + 0 - ((0 : Nat) : Int) = expOf x := by omega
  simp only [quotientPattern_one, hshift, if_neg hnonzero, neg_zero, ite_self, hexp, hmant, Int.toNat_natCast]
  rw [if_neg (by omega), if_neg (by omega), packed_fields]

/-- A denormal is short of bit 15 by a place at least, which the correction of its exponent does not outweigh. -/
theorem quotientPattern_one_of_denormal (p : Params) {x : Word} (hx : IsDenormal x) :
    quotientPattern p x 0x3F80#16 = zeroOf (signOf x) := by
  have hfrac : fracOf x ≤ 127 := fracOf_le x
  have hsig : sigOf x = fracOf x := if_pos hx.1
  have hpos : 0 < sigOf x * 256 := by omega
  have hsize : (sigOf x * 256).size ≤ 15 := Nat.size_le.mpr (by omega)
  have hshift : 1 ≤ leftShift16 (sigOf x * 256) := by
    rw [leftShift16_eq_sub_size hpos]
    omega
  have hre : (0 : Int) + (if p.divDenormAdj = .valueCorrect then 1 else -1) - leftShift16 (sigOf x * 256) ≤ 0 := by
    split_ifs <;> omega
  simp only [quotientPattern_one, hx.1, if_true, Nat.cast_zero]
  rw [if_neg (by omega), if_pos hre]

/-- Settles O50: the two laws for 1.0. -/
theorem divByOneIsIdentityOnNormals : Obligations.DivByOneIsIdentityOnNormals := by
  refine fun x s => ⟨fun hx => ?normal, fun hx => ?denormal⟩
  case normal =>
    rw [divFiniteQuotient x _ s (isFiniteNonzero_of_normal hx) isFiniteNonzero_one, quotientPattern_one_of_normal s.params hx]
  case denormal =>
    rw [divFiniteQuotient x _ s (isFiniteNonzero_of_denormal hx) isFiniteNonzero_one,
      quotientPattern_one_of_denormal s.params hx]

/-! ### NaN results (R104 item 5) -/

theorem not_isNaN_zeroOf (s : Nat) : ¬ IsNaN (zeroOf s) := by simp [IsNaN]
theorem not_isNaN_infOf (s : Nat) : ¬ IsNaN (infOf s) := by simp [IsNaN]

theorem isNaN_divReferenceNumbers_iff (p : Params) (a b : Word) :
    IsNaN (divReferenceNumbers p a b) ↔ (IsInf a ∧ IsInf b) ∨ (IsZero a ∧ IsZero b) := by
  rw [divReferenceNumbers]
  split_ifs with hcanon hinf hzero
  · exact iff_of_true isNaN_canonNaN hcanon
  · exact iff_of_false (not_isNaN_infOf _) hcanon
  · exact iff_of_false (not_isNaN_zeroOf _) hcanon
  · exact iff_of_false (not_isNaN_quotientPattern p a b) hcanon

/-- Settles O51: the two orders of `divReference`, and the canonical NaN of the operands both orders agree on. -/
theorem divNaNClosureDependsOnOrder : Obligations.DivNaNClosureDependsOnOrder := by
  intro a b s
  refine ⟨_, exec_div_eq a b s, fun horder hnan => ?naNFirst, fun horder ha hb => ?divisorFirst, fun ha hb => ?numbers⟩
  case naNFirst =>
    rw [divider_naNFirst horder]
    split_ifs with ha hb
    · exact ha
    · exact hb
    · exact absurd hnan (not_or_intro ha hb)
  case divisorFirst =>
    have hbn : ¬ IsNaN b := hb.elim not_isNaN_of_isInf not_isNaN_of_isZero
    rw [divider_divisorFirst horder, if_neg hbn, if_pos ha]
    split_ifs with hbi hbz
    · exact not_isNaN_zeroOf _
    · exact not_isNaN_infOf _
    · exact absurd hb (not_or_intro hbi hbz)
  case numbers => rw [divider_of_numbers _ ha hb, isNaN_divReferenceNumbers_iff]

/-! ### The exact quotient (R97, R99)

`x` and `y` are the operands' significands, `k` the shift of the quotient into its window, `s` the dividend's
significand with that shift, `M` and `m` the places of the dividend and the divisor above the denormal grid. -/

/-- The 8 bits kept of a shifted quotient are the quotient of the shifted dividend: truncating twice is truncating
once. -/
theorem quotient_window_eq_div {x y k : Nat} (hk : k ≤ 8) : x * 2 ^ 15 / y * 2 ^ k / 256 = x * 2 ^ (7 + k) / y := by
  have hwindow : 256 = 2 ^ (8 - k) * 2 ^ k := by
    rw [← Nat.pow_add, Nat.sub_add_cancel hk]
  have hdividend : x * 2 ^ 15 = x * 2 ^ (7 + k) * 2 ^ (8 - k) := by
    rw [Nat.mul_assoc, ← Nat.pow_add]
    congr 2
    omega
  rw [hwindow, Nat.mul_div_mul_right _ _ (Nat.two_pow_pos k), Nat.div_div_eq_div_mul, hdividend,
    Nat.mul_div_mul_right _ _ (Nat.two_pow_pos _)]

/-- The magnitude of a quotient reaches a power of two exactly when its exponent does. -/
theorem two_pow_le_quotient_iff {s y M m J : Nat} (hlow : 128 * y ≤ s) (hhigh : s < 256 * y) :
    y * 2 ^ m * 2 ^ (7 + J) ≤ s * 2 ^ M ↔ m + J ≤ M := by
  have hscale : y * 2 ^ m * 2 ^ (7 + J) = 128 * y * 2 ^ (m + J) := by
    rw [Nat.pow_add, Nat.pow_add]
    ring
  rw [hscale]
  constructor
  · intro hreach
    by_contra hsmall
    have : s * 2 ^ M < 128 * y * 2 ^ (m + J) :=
      calc s * 2 ^ M < 256 * y * 2 ^ M := Nat.mul_lt_mul_of_pos_right hhigh (Nat.two_pow_pos M)
        _ = 128 * y * 2 ^ (M + 1) := by rw [Nat.pow_succ]; ring
        _ ≤ 128 * y * 2 ^ (m + J) := Nat.mul_le_mul_left _ (Nat.pow_le_pow_right (by decide) (by omega))
    exact Nat.not_le_of_lt this hreach
  · intro hplaces
    exact Nat.mul_le_mul hlow (Nat.pow_le_pow_right (by decide) hplaces)

theorem two_pow_mul_le_quotient_iff {s y M m i j J : Nat} (hlow : 128 * y ≤ s) (hhigh : s < 256 * y)
    (hJ : i + j = 7 + J) : y * 2 ^ m * (2 ^ i * 2 ^ j) ≤ s * 2 ^ M ↔ m + J ≤ M := by
  rw [← Nat.pow_add, hJ, two_pow_le_quotient_iff hlow hhigh]

/-- In the normal range the 8 bits kept truncate the quotient to the grid of its exponent. -/
theorem truncates_quotient {sgn s y M m e : Nat} (hy : 0 < y) (hlow : 128 * y ≤ s) (hhigh : s < 256 * y)
    (he : e + m = M + 1) (hpos : 1 ≤ e) (hmax : e ≤ 254) :
    Truncates (packed sgn e (s / y % 128)) (s * 2 ^ M) (y * 2 ^ m) := by
  have hgrid (n : Nat) : n * 2 ^ (e - 1) * (y * 2 ^ m) = n * y * 2 ^ M := by
    have hM : M = e - 1 + m := by omega
    rw [hM, Nat.pow_add]
    ring
  refine truncates_packed_normal hpos hmax ((Nat.le_div_iff_mul_le hy).mpr hlow)
    ((Nat.div_lt_iff_lt_mul hy).mpr hhigh) ?_ ?_
  · rw [hgrid]
    exact Nat.mul_le_mul_right _ (Nat.div_mul_le_self _ _)
  · rw [hgrid]
    exact Nat.mul_lt_mul_of_pos_right (Nat.lt_mul_of_div_lt (Nat.lt_succ_self _) hy) (Nat.two_pow_pos M)

/-! ### DIV below saturation, under ValueCorrect -/

/-- The places of a finite pattern's last bit above the denormal grid. -/
def gridPlaces (v : Word) : Nat := max 1 (expOf v) - 1

/-- The exponent of a denormal is one more than its stored 0, which is the correction of `ValueCorrect` (R98). -/
theorem gridPlaces_eq (v : Word) : (gridPlaces v : Int) = (expOf v : Int) + (if expOf v = 0 then 1 else 0) - 1 := by
  unfold gridPlaces
  split_ifs <;> omega

/-- The quotient of two significands below saturation, shifted by the places `k` it is short of bit 15. -/
theorem shifted_quotient_bounds {x y k : Nat} (hx : 0 < x) (hy : 0 < y) (hy' : y ≤ 0xFF) (hlt : x < 2 * y)
    (hk : k = leftShift16 (x * 2 ^ 15 / y)) :
    k ≤ 8 ∧ 128 * y ≤ x * 2 ^ (7 + k) ∧ x * 2 ^ (7 + k) < 256 * y := by
  obtain ⟨hlow, hhigh⟩ := saturatingQuotient_bounds hx hy hy'
  have hunsat : x * 2 ^ 15 / y ≤ 0xFFFF :=
    Nat.le_of_not_lt fun hover => Nat.not_le_of_lt hlt ((quotient_saturates_iff hy).mp hover)
  rw [Nat.min_eq_left hunsat] at hlow hhigh
  have hk8 : k ≤ 8 := hk ▸ leftShift16_le_eight hlow
  obtain ⟨hbit15, hfits⟩ := mul_two_pow_leftShift16_bounds (by omega) hhigh
  rw [← hk] at hbit15 hfits
  have hwindow := quotient_window_eq_div (x := x) (y := y) hk8
  refine ⟨hk8, ?_, ?_⟩
  · rw [← Nat.le_div_iff_mul_le hy]
    omega
  · rw [← Nat.div_lt_iff_lt_mul hy]
    omega

/-- Below saturation, under ValueCorrect, a quotient is infinite from 2^128 on, a zero below 2^-126, and truncates the
exact quotient between. -/
theorem quotientPattern_truncates {p : Params} (hp : p.divDenormAdj = .valueCorrect) {a b : Word}
    (ha : IsFiniteNonzero a) (hb : IsFiniteNonzero b) (hlt : sigOf a < 2 * sigOf b) :
    (scaledOf b * (2 ^ 128 * 2 ^ 133) ≤ scaledOf a * 2 ^ 133 → quotientPattern p a b = infOf (signXor a b)) ∧
      (scaledOf a * 2 ^ 133 < scaledOf b * 2 ^ 7 → quotientPattern p a b = zeroOf (signXor a b)) ∧
      (scaledOf b * 2 ^ 7 ≤ scaledOf a * 2 ^ 133 → scaledOf a * 2 ^ 133 < scaledOf b * (2 ^ 128 * 2 ^ 133) →
        IsNormal (quotientPattern p a b) ∧
          Truncates (quotientPattern p a b) (scaledOf a * 2 ^ 133) (scaledOf b)) := by
  have hapos : 0 < sigOf a := sigOf_pos ha.2
  have hbpos : 0 < sigOf b := sigOf_pos hb.2
  obtain ⟨k, hk⟩ : ∃ k, k = leftShift16 (sigOf a * 2 ^ 15 / sigOf b) := ⟨_, rfl⟩
  obtain ⟨hk8, hlow, hhigh⟩ := shifted_quotient_bounds hapos hbpos (sigOf_le b) hlt hk
  have hunsat : min (sigOf a * 2 ^ 15 / sigOf b) 0xFFFF = sigOf a * 2 ^ 15 / sigOf b :=
    Nat.min_eq_left (Nat.le_of_not_lt fun hover => Nat.not_le_of_lt hlt ((quotient_saturates_iff hbpos).mp hover))
  obtain ⟨M, hM⟩ : ∃ M, M + k = gridPlaces a + 126 := ⟨gridPlaces a + 126 - k, by omega⟩
  have hN : scaledOf a * 2 ^ 133 = sigOf a * 2 ^ (7 + k) * 2 ^ M := by
    have hplaces : gridPlaces a + 133 = 7 + k + M := by omega
    rw [scaledOf, ← gridPlaces, Nat.mul_assoc, Nat.mul_assoc, ← Nat.pow_add, ← Nat.pow_add, hplaces]
  have hD : scaledOf b = sigOf b * 2 ^ gridPlaces b := rfl
  have hre : (expOf a : Int) - expOf b + 127 +
      ((if expOf a = 0 then 1 else 0) - (if expOf b = 0 then 1 else 0)) - (k : Int) = (M : Int) + 1 - gridPlaces b := by
    have hea := gridPlaces_eq a
    have heb := gridPlaces_eq b
    omega
  have hinf : scaledOf b * (2 ^ 128 * 2 ^ 133) ≤ scaledOf a * 2 ^ 133 ↔ gridPlaces b + 254 ≤ M := by
    rw [hN, hD]
    exact two_pow_mul_le_quotient_iff hlow hhigh rfl
  have hmin : scaledOf b * 2 ^ 7 ≤ scaledOf a * 2 ^ 133 ↔ gridPlaces b ≤ M := by
    rw [hN, hD]
    exact two_pow_le_quotient_iff (J := 0) hlow hhigh
  rw [← Nat.not_le, ← Nat.not_le, hinf, hmin, hN, hD]
  simp only [quotientPattern, hunsat, ← hk, if_pos hp, hre, quotient_window_eq_div hk8]
  refine ⟨fun hover => ?inf, fun hflush => ?zero, fun hplaces hbelow => ?normal⟩
  case inf => rw [if_pos (by omega)]
  case zero => rw [if_neg (by omega), if_pos (by omega)]
  case normal =>
    have hexp : ((M : Int) + 1 - gridPlaces b).toNat + gridPlaces b = M + 1 := by omega
    rw [if_neg (by omega), if_neg (by omega)]
    refine ⟨?_, truncates_quotient hbpos hlow hhigh hexp (by omega) (by omega)⟩
    rw [IsNormal, expOf_packed (by omega) (by omega)]
    omega

/-- Settles O52: the three ranges of `quotientPattern_truncates`. -/
theorem divIsTruncatedExactQuotient : Obligations.DivIsTruncatedExactQuotient := by
  intro a b s ha hb hlt hp N D
  obtain ⟨hinf, hzero, hnormal⟩ := quotientPattern_truncates hp ha hb hlt
  refine ⟨_, divFiniteQuotient a b s ha hb, (quotientPattern_cases _ a b).1, fun hover => ?_, fun hflush => ?_,
    fun hmin hmax => ?_⟩
  · rw [hinf hover]
    exact ⟨expOf_infOf _, fracOf_infOf _⟩
  · rw [hzero hflush]
    exact ⟨expOf_zeroOf _, fracOf_zeroOf _⟩
  · obtain ⟨hclass, -, hbounds⟩ := hnormal hmin hmax
    exact ⟨hclass, hbounds⟩

end Sys2Proof.Proofs
end

section
/-! The unit as one function of its ports (10_state.md R29): every step drives `unitReference`, and the patterns that
function can drive. -/

namespace Sys2Proof.Proofs

open Sys2Proof.Machine Sys2Proof.Laws

/-! ### The operation map on the reference (R42) -/

theorem unitReference_zero (p : Params) (a b : Word) : unitReference p 0#3 a b = addReference p a b := rfl
theorem unitReference_one (p : Params) (a b : Word) : unitReference p 1#3 a b = addReference p a (flipSign b) := rfl
theorem unitReference_two (p : Params) (a b : Word) : unitReference p 2#3 a b = mulReference p a b := rfl
theorem unitReference_three (p : Params) (a b : Word) : unitReference p 3#3 a b = divReference p a b := rfl
theorem unitReference_four (p : Params) (a b : Word) :
    unitReference p 4#3 a b = if IsZero a then 1#16 else 0#16 := rfl
theorem unitReference_five (p : Params) (a b : Word) :
    unitReference p 5#3 a b = if IsNaN a then 1#16 else 0#16 := rfl
theorem unitReference_six (p : Params) (a b : Word) :
    unitReference p 6#3 a b = if IsInf a then 1#16 else 0#16 := rfl
theorem unitReference_seven (p : Params) (a b : Word) : unitReference p 7#3 a b = classReference a := rfl

/-- Each meaning answers the reference of its row. -/
theorem exec_eq_unitReference (i : Instr) (s : State) :
    exec i s = .next { s with r := unitReference s.params i.opSel i.operandA i.operandB } := by
  cases i with
  | add a b => exact exec_add_eq_addReference a b s
  | sub a b => exact (exec_sub_eq_exec_add a b s).trans (exec_add_eq_addReference a (flipSign b) s)
  | mul a b => exact exec_mul_eq_mulReference a b s
  | div a b => exact exec_div_eq_divReference a b s
  | iszero a b => exact (isZeroDrivesOneForZeros a b s).1
  | isnan a b => exact (isNaNDrivesOneForNaNs a b s).1
  | isinf a b => exact (isInfDrivesOneForInfinities a b s).1
  | classify a b => exact (classDrivesClassCode a b s).1

/-- The operation map keeps the three fields (R41). -/
theorem opSel_decodeFields (op : OpSel) (a b : Word) : (decodeFields op a b).opSel = op := by
  rw [← encode_op, encode_decodeFields, packRequest_op]

theorem operandA_decodeFields (op : OpSel) (a b : Word) : (decodeFields op a b).operandA = a := by
  obtain rfl | rfl | rfl | rfl | rfl | rfl | rfl | rfl := opSel_cases op <;> rfl

theorem operandB_decodeFields (op : OpSel) (a b : Word) : (decodeFields op a b).operandB = b := by
  obtain rfl | rfl | rfl | rfl | rfl | rfl | rfl | rfl := opSel_cases op <;> rfl

/-- All a step does: it drives the reference of the ports on `r`. -/
theorem step_eq_unitReference (s : State) :
    step s = .next { s with r := unitReference s.params s.op s.a s.b } := by
  rw [step_eq_exec_decodeFields, exec_eq_unitReference, opSel_decodeFields, operandA_decodeFields,
    operandB_decodeFields]

/-- Settles O9: `step_eq_unitReference`. -/
theorem stepSettlesOutput : Obligations.StepSettlesOutput :=
  fun s => ⟨_, step_eq_unitReference s, rfl, rfl, rfl, rfl, rfl⟩

/-! ### The classes of results -/

theorem not_isDenormal_of_isNaN {v : Word} (h : IsNaN v) : ¬ IsDenormal v := by omega
theorem not_isDenormal_infOf (s : Nat) : ¬ IsDenormal (infOf s) := by simp [IsDenormal]
theorem not_isDenormal_zeroOf (s : Nat) : ¬ IsDenormal (zeroOf s) := by simp [IsDenormal]

/-- Every MUL result that is not a NaN has the XOR sign (R93 item 4). -/
theorem signOf_mulReference {p : Params} {a b : Word} (h : ¬ IsNaN (mulReference p a b)) :
    signOf (mulReference p a b) = signXor a b := by
  have hsign : signXor a b ≤ 1 := signXor_le_one a b
  by_cases hfin : IsFiniteNonzero a ∧ IsFiniteNonzero b
  · rw [mulReference_of_finiteNonzero p hfin.1 hfin.2, signOf_productPattern p hfin.1 hfin.2]
  · rw [mulReference] at h ⊢
    split_ifs at h ⊢ with ha hb hcanon hinf hzero
    · exact absurd ha h
    · exact absurd hb h
    · exact absurd isNaN_canonNaN h
    · exact signOf_infOf hsign
    · exact signOf_zeroOf hsign
    · obtain ⟨hai, hbi⟩ := not_or.mp hinf
      obtain ⟨haz, hbz⟩ := not_or.mp hzero
      exact absurd ⟨⟨isFinite_of_not_isNaN_of_not_isInf ha hai, haz⟩,
        ⟨isFinite_of_not_isNaN_of_not_isInf hb hbi, hbz⟩⟩ hfin

/-- A DIV result is a NaN, or it has the XOR sign (R94) and is no denormal (R104 item 3). -/
def IsQuotientResult (a b v : Word) : Prop := IsNaN v ∨ (signOf v = signXor a b ∧ ¬ IsDenormal v)

theorem isQuotientResult_zeroOf (a b : Word) : IsQuotientResult a b (zeroOf (signXor a b)) :=
  .inr ⟨signOf_zeroOf (signXor_le_one a b), not_isDenormal_zeroOf _⟩

theorem isQuotientResult_infOf (a b : Word) : IsQuotientResult a b (infOf (signXor a b)) :=
  .inr ⟨signOf_infOf (signXor_le_one a b), not_isDenormal_infOf _⟩

theorem isQuotientResult_divReferenceNumbers (p : Params) (a b : Word) :
    IsQuotientResult a b (divReferenceNumbers p a b) := by
  rw [divReferenceNumbers]
  split_ifs
  · exact .inl isNaN_canonNaN
  · exact isQuotientResult_infOf a b
  · exact isQuotientResult_zeroOf a b
  · obtain ⟨hsign, hclass⟩ := quotientPattern_cases p a b
    exact .inr ⟨hsign, by omega⟩

theorem isQuotientResult_divReference (p : Params) (a b : Word) :
    IsQuotientResult a b (divReference p a b) := by
  rw [divReference]
  split_ifs with _ ha hb hb ha
  · exact .inl ha
  · exact .inl hb
  · exact isQuotientResult_divReferenceNumbers p a b
  · exact .inl hb
  · exact isQuotientResult_zeroOf a b
  · exact isQuotientResult_infOf a b
  · exact .inl ha
  · exact isQuotientResult_divReferenceNumbers p a b

theorem classReference_toNat_le (a : Word) : (classReference a).toNat ≤ 4 := by
  rw [classReference]
  split_ifs <;> decide

theorem ite_one_zero_cases (P : Prop) [Decidable P] :
    (if P then 1#16 else 0#16) = 0#16 ∨ (if P then 1#16 else 0#16) = 1#16 := by
  split_ifs
  · exact .inr rfl
  · exact .inl rfl

/-- What the reference drives for a given `op` is legal; each operation meets the clauses that name it. -/
theorem outputLegal_of_settled {s : State} (h : OutputSettled s) : OutputLegal s := by
  rw [OutputSettled] at h
  rw [OutputLegal, h]
  refine ⟨fun hop hden => ?denormalSum, fun hop hnan => ?sign, fun hop => ?noDenormal, fun hlow hhigh => ?predicate,
    fun hop => ?classCode⟩
  case denormalSum =>
    obtain hop | hop : s.op = 0#3 ∨ s.op = 1#3 := by bv_omega
    · rw [hop, unitReference_zero] at hden
      exact exponents_eq_zero_of_addReference_denormal hden
    · rw [hop, unitReference_one] at hden
      simpa using exponents_eq_zero_of_addReference_denormal hden
  case sign =>
    obtain hop | hop : s.op = 2#3 ∨ s.op = 3#3 := by bv_omega
    · rw [hop, unitReference_two] at hnan ⊢
      exact signOf_mulReference hnan
    · rw [hop, unitReference_three] at hnan ⊢
      exact ((isQuotientResult_divReference _ _ _).resolve_left hnan).1
  case noDenormal =>
    have hop : s.op = 3#3 := by bv_omega
    rw [hop, unitReference_three]
    exact (isQuotientResult_divReference _ _ _).elim not_isDenormal_of_isNaN And.right
  case predicate =>
    obtain hop | hop | hop : s.op = 4#3 ∨ s.op = 5#3 ∨ s.op = 6#3 := by bv_omega
    · rw [hop, unitReference_four]
      exact ite_one_zero_cases _
    · rw [hop, unitReference_five]
      exact ite_one_zero_cases _
    · rw [hop, unitReference_six]
      exact ite_one_zero_cases _
  case classCode =>
    have hop : s.op = 7#3 := by bv_omega
    rw [hop, unitReference_seven]
    exact classReference_toNat_le s.a

/-- Settles O10: a step settles the output, and a settled output is legal. -/
theorem stepOutputIsLegal : Obligations.StepOutputIsLegal := by
  intro s t hst
  obtain ⟨t', hstep, hsettled, -⟩ := stepSettlesOutput s
  obtain rfl : t' = t := by
    rw [hst] at hstep
    cases hstep
    rfl
  exact outputLegal_of_settled hsettled

/-- At power-up the zero inputs have the sum 0x0000 under every parameter value (log entry 3). -/
theorem outputSettled_resetFor (p : Params) : OutputSettled (State.resetFor p) := by
  have hzero : IsZero 0#16 := by decide
  rw [OutputSettled, resetFor_r, resetFor_params, resetFor_op, resetFor_a, resetFor_b, unitReference_zero,
    addReference_of_isZero_left p _ hzero]

/-- Settles O11: the settled power-up output is legal, and the defaults are those of `Params.default`. -/
theorem resetIsSettledDefaultInstance : Obligations.ResetIsSettledDefaultInstance :=
  ⟨fun p => ⟨outputSettled_resetFor p, outputLegal_of_settled (outputSettled_resetFor p), resetFor_params p⟩, rfl⟩

/-! ### Predicates and classes (R61) -/

/-- The first three codes of `classReference` are those of the three predicates, whose classes exclude one another. -/
theorem classReference_eq_iff (a : Word) :
    (IsZero a ↔ classReference a = 0#16) ∧ (IsInf a ↔ classReference a = 1#16) ∧
      (IsNaN a ↔ classReference a = 2#16) := by
  rw [classReference]
  split_ifs with hz hi hn hnorm
  · exact ⟨iff_of_true hz rfl, iff_of_false (fun h => not_isZero_of_isInf h hz) (by decide),
      iff_of_false (not_isNaN_of_isZero hz) (by decide)⟩
  · exact ⟨iff_of_false hz (by decide), iff_of_true hi rfl, iff_of_false (not_isNaN_of_isInf hi) (by decide)⟩
  · exact ⟨iff_of_false hz (by decide), iff_of_false hi (by decide), iff_of_true hn rfl⟩
  · exact ⟨iff_of_false hz (by decide), iff_of_false hi (by decide), iff_of_false hn (by decide)⟩
  · exact ⟨iff_of_false hz (by decide), iff_of_false hi (by decide), iff_of_false hn (by decide)⟩

theorem ite_one_zero_eq_one_iff (P : Prop) [Decidable P] : (if P then 1#16 else 0#16) = 1#16 ↔ P := by
  split_ifs with h
  · exact iff_of_true rfl h
  · exact iff_of_false (by decide) h

/-- Settles O20: each predicate's result is 1 exactly on its class, and so is the class code. -/
theorem predicatesAgreeWithClass : Obligations.PredicatesAgreeWithClass := by
  intro a b₁ b₂ b₃ b₄ s
  obtain ⟨hzero, hinf, hnan⟩ := classReference_eq_iff a
  exact ⟨_, _, _, _, (isZeroDrivesOneForZeros a b₁ s).1, (isNaNDrivesOneForNaNs a b₂ s).1,
    (isInfDrivesOneForInfinities a b₃ s).1, (classDrivesClassCode a b₄ s).1,
    (ite_one_zero_eq_one_iff _).trans hzero, (ite_one_zero_eq_one_iff _).trans hinf,
    (ite_one_zero_eq_one_iff _).trans hnan⟩

end Sys2Proof.Proofs
end

section
/-! The ranges of the datapaths' intermediates (41_normalizer.md R69). -/

namespace Sys2Proof.Proofs

open Sys2Proof.Machine Sys2Proof.Laws

/-! ### The adder -/

theorem normRight9_count_le (x : Nat) : (normRight9 x).count ≤ 1 := by
  rw [normRight9]
  split_ifs
  · exact Nat.le_refl 1
  · exact Nat.zero_le 1

/-- A cancellation that does not flush only lowers the exponent, and not below 0. -/
theorem cancelLoop_exponent_bounds {bound x d : Nat} {re re' : Int} (hre : 0 ≤ re)
    (h : cancelLoop bound x re = some (d, re')) : 0 ≤ re' ∧ re' ≤ re := by
  induction bound generalizing x re with
  | zero =>
    obtain ⟨rfl, rfl⟩ : x = d ∧ re = re' := by simpa [cancelLoop] using h
    exact ⟨hre, le_refl re⟩
  | succ bound ih =>
    rw [cancelLoop] at h
    split_ifs at h with hbit hflush
    · obtain ⟨rfl, rfl⟩ : x = d ∧ re = re' := by simpa using h
      exact ⟨hre, le_refl re⟩
    · obtain ⟨hlow, hhigh⟩ := ih (by omega) h
      exact ⟨hlow, by omega⟩

/-- Aligned operands are both at the larger exponent. -/
theorem aligned_eq {a b : Word} {x y re : Nat} (h : align a b = .aligned x y re) :
    x = alignedSig a re ∧ y = alignedSig b re ∧ re = max (expOf a) (expOf b) := by
  rw [align_eq] at h
  split_ifs at h
  cases h
  exact ⟨rfl, rfl, rfl⟩

theorem adder_ranges {a b : Word} {x y re : Nat} (ha : IsFinite a) (hb : IsFinite b)
    (h : align a b = .aligned x y re) :
    x ≤ 0xFF ∧ y ≤ 0xFF ∧ x + y ≤ 0x1FE ∧ (if y ≤ x then x - y else y - x) ≤ 0xFF ∧
      re ≤ 254 ∧ re + (normRight9 (x + y)).count ≤ 255 ∧
      (∀ (d : Nat) (re' : Int), cancelLoop 7 (if y ≤ x then x - y else y - x) (re : Int) = some (d, re') →
        0 ≤ re' ∧ re' ≤ 255) := by
  obtain ⟨rfl, rfl, hre⟩ := aligned_eq h
  have hx := alignedSig_lt a re
  have hy := alignedSig_lt b re
  have hmax : max (expOf a) (expOf b) < 255 := Nat.max_lt.mpr ⟨ha, hb⟩
  have hcarry := normRight9_count_le (alignedSig a re + alignedSig b re)
  refine ⟨by omega, by omega, by omega, Nat.le_of_lt_succ (absDifference_lt hx hy), by omega, by omega,
    fun d re' hloop => ?_⟩
  obtain ⟨hlow, hhigh⟩ := cancelLoop_exponent_bounds (by omega) hloop
  exact ⟨hlow, by omega⟩

/-! ### The multiplier -/

theorem normProd_count_le (p : Nat) : (normProd p).count ≤ 1 := by
  rw [normProd]
  split_ifs
  · exact Nat.le_refl 1
  · exact Nat.zero_le 1

/-! ### The divider -/

/-- The loop of R97 carries on from any iteration: `divPartial` is its state after each. -/
theorem divLoop_divPartial (x y : Nat) {n : Nat} (hn : n ≤ 16) :
    divLoop y n (divPartial x y (16 - n)) = divPartial x y 16 := by
  induction n with
  | zero => rfl
  | succ n ih =>
    have hiter : 16 - n = 16 - (n + 1) + 1 := by omega
    have hshift : 15 - (16 - (n + 1)) = n := by omega
    rw [← ih (by omega), hiter, divPartial_succ, hshift, divLoop]

theorem divPartial_sixteen (x y : Nat) : divPartial x y 16 = restoringDivide x y :=
  (divLoop_divPartial x y (Nat.le_refl 16)).symm

/-- No partial remainder is larger than the dividend. -/
theorem divPartial_rem_le (x y i : Nat) : (divPartial x y i).rem ≤ x * 2 ^ 15 := by
  induction i with
  | zero => exact Nat.le_of_eq (Nat.shiftLeft_eq x 15)
  | succ i ih =>
    rw [divPartial_succ]
    exact (divIter_rem_le y _ _).trans ih

/-- The shifted divisors go from the divisor to its 15th double. -/
theorem shifted_divisor_bounds {y j : Nat} (hy : 1 ≤ y) (hj : j ≤ 15) : 1 ≤ y <<< j ∧ y <<< j ≤ y * 2 ^ 15 := by
  rw [Nat.shiftLeft_eq]
  exact ⟨Nat.mul_pos hy (Nat.two_pow_pos j), Nat.mul_le_mul_left y (Nat.pow_le_pow_right (by decide) hj)⟩

/-- Two normal significands have a quotient between 128/255 and 255/128, which does not saturate. -/
theorem restoringDivide_q_of_normals {x y : Nat} (hx : 0x80 ≤ x) (hx' : x ≤ 0xFF) (hy : 0x80 ≤ y) (hy' : y ≤ 0xFF) :
    0x4040 ≤ (restoringDivide x y).q ∧ (restoringDivide x y).q ≤ 0xFF00 := by
  have hpos : 0 < y := by omega
  have hlow : 0x4040 ≤ x * 2 ^ 15 / y := by
    rw [Nat.le_div_iff_mul_le hpos]
    omega
  have hhigh : x * 2 ^ 15 / y < 0xFF01 := by
    rw [Nat.div_lt_iff_lt_mul hpos]
    omega
  rw [restoringDivide_q x hpos]
  omega

theorem divider_ranges {x y : Nat} (hx : 1 ≤ x) (hx' : x ≤ 0xFF) (hy : 1 ≤ y) (hy' : y ≤ 0xFF) :
    divPartial x y 16 = restoringDivide x y ∧
      (∀ i : Nat, i ≤ 16 → (divPartial x y i).rem ≤ 0x7F8000) ∧
      (∀ i : Nat, i ≤ 15 → 1 ≤ y <<< (15 - i) ∧ y <<< (15 - i) ≤ 0x7F8000) ∧
      0x80 ≤ (restoringDivide x y).q ∧ (restoringDivide x y).q ≤ 0xFFFF ∧
      (0x80 ≤ x → 0x80 ≤ y → 0x4040 ≤ (restoringDivide x y).q ∧ (restoringDivide x y).q ≤ 0xFF00) := by
  obtain ⟨hlow, hhigh⟩ := saturatingQuotient_bounds hx hy hy'
  rw [← restoringDivide_q x hy] at hlow hhigh
  refine ⟨divPartial_sixteen x y, fun i _ => ?remainder, fun i _ => ?divisor, hlow, Nat.le_of_lt_succ hhigh,
    fun hxn hyn => restoringDivide_q_of_normals hxn hx' hyn hy'⟩
  case remainder =>
    have hrem := divPartial_rem_le x y i
    omega
  case divisor =>
    obtain ⟨hpos, hmax⟩ := shifted_divisor_bounds hy (Nat.sub_le 15 i)
    exact ⟨hpos, by omega⟩

theorem denormAdj_bounds (p : Params) (a b : Word) :
    -1 ≤ denormAdj p (dec a).e (dec b).e ∧ denormAdj p (dec a).e (dec b).e ≤ 1 := by
  rw [denormAdj_eq]
  split_ifs <;> decide

/-- The exponent starts with room for the loop's eight steps. -/
theorem divExponent_bounds (p : Params) {a b : Word} (ha : IsFinite a) (hb : IsFinite b) :
    -128 ≤ divExponent p (dec a).e (dec b).e ∧ divExponent p (dec a).e (dec b).e ≤ 382 := by
  obtain ⟨hlow, hhigh⟩ := denormAdj_bounds p a b
  have hea : expOf a < 255 := ha
  have heb : expOf b < 255 := hb
  rw [divExponent_dec]
  omega

theorem divExponent_renormalised_bounds (p : Params) {a b : Word} (ha : IsFiniteNonzero a)
    (hb : IsFiniteNonzero b) :
    let q := (restoringDivide (significand (dec a)) (significand (dec b))).q
    let re := divExponent p (dec a).e (dec b).e
    (-136 : Int) ≤ re ∧ re ≤ 382 ∧ (-136 : Int) ≤ (quotientLoop 8 q re).2 ∧ (quotientLoop 8 q re).2 ≤ 382 := by
  obtain ⟨hlow, hhigh⟩ := divExponent_bounds p ha.1 hb.1
  have hbpos : 0 < sigOf b := sigOf_pos hb.2
  obtain ⟨hqlow, hqhigh⟩ := saturatingQuotient_bounds (sigOf_pos ha.2) hbpos (sigOf_le b)
  have hshift := leftShift16_le_eight hqlow
  intro q re
  have hloop : (quotientLoop 8 q re).2 = re - leftShift16 (min (sigOf a * 2 ^ 15 / sigOf b) 0xFFFF) := by
    simp only [q, significand_dec, restoringDivide_q _ hbpos, quotientLoop_eq_leftShift16 _ hqlow hqhigh]
  omega

/-- Settles O27: a lemma above, or of the datapath's own file, for each row of R69's table. -/
theorem intermediatesStayInRange : Obligations.IntermediatesStayInRange := by
  refine ⟨fun v => ?fields, fun a b ha hb => ?difference, fun a b x y re ha hb => adder_ranges ha.1 hb.1,
    fun a b ha hb => ?multiplier, fun x y => divider_ranges, fun p a b => divExponent_renormalised_bounds p, clz32_le⟩
  case fields =>
    rw [dec_s_toNat, dec_e_toNat, dec_m_toNat, significand_dec]
    exact ⟨signOf_le_one v, expOf_le v, fracOf_le v, sigOf_le v⟩
  case difference =>
    have hea : expOf a < 255 := ha.1
    have heb : expOf b < 255 := hb.1
    rw [dec_e_toNat, dec_e_toNat]
    omega
  case multiplier =>
    obtain ⟨halow, hahigh⟩ := normSigOf_bounds ha
    obtain ⟨hblow, hbhigh⟩ := normSigOf_bounds hb
    obtain ⟨hmin, hmax⟩ := normSigOf_mul_bounds ha hb
    obtain ⟨healow, heahigh⟩ := normExpOf_bounds ha.1
    obtain ⟨heblow, hebhigh⟩ := normExpOf_bounds hb.1
    intro pa pb re re'
    have hashift : pa.shift ≤ 7 := mulPrepare_shift_le ha
    have hbshift : pb.shift ≤ 7 := mulPrepare_shift_le hb
    have hsiga : pa.sig = normSigOf a := mulPrepare_sig ha
    have hsigb : pb.sig = normSigOf b := mulPrepare_sig hb
    have hre : re = normExpOf a + normExpOf b - 127 := mulExponentSum_mulPrepare ha hb
    have hcarry : (normProd (pa.sig * pb.sig)).count ≤ 1 := normProd_count_le _
    have hlow : re ≤ re' := by omega
    have hhigh : re' ≤ re + 1 := by omega
    rw [hsiga, hsigb]
    exact ⟨halow, by omega, hashift, hblow, by omega, hbshift, by omega, by omega, hmin, hmax, by omega, by omega,
      by omega, by omega, by omega⟩

end Sys2Proof.Proofs
end

section
/-! The numeric value of a pattern (10_state.md R22) in units of 2^-133, the smallest denormal's. -/

namespace Sys2Proof.Proofs

open Sys2Proof.Machine Sys2Proof.Laws

theorem decide_dec_s_eq_one (v : Word) : decide ((dec v).s = 1#1) = decide (signOf v = 1) := by
  rw [decide_eq_decide, ← dec_s_toNat, ← BitVec.toNat_inj]
  rfl

theorem numericValue_eq (v : Word) :
    numericValue v =
      if IsNaN v then .nan
      else if IsInf v then .infinity (decide (signOf v = 1))
      else if IsNormal v then
        .finite (decide (signOf v = 1)) ((2 : ℚ) ^ ((expOf v : Int) - 127) * (1 + (fracOf v : ℚ) / 128))
      else .finite (decide (signOf v = 1)) ((2 : ℚ) ^ (-126 : Int) * ((fracOf v : ℚ) / 128)) := by
  simp only [numericValue, isNaNF_dec, isInfF_dec, isNormF_dec, decide_eq_true_eq, decide_dec_s_eq_one, dec_e_toNat,
    dec_m_toNat]

/-- A normal pattern is `128 + m` units of its last bit. -/
theorem normal_value_eq_scaledOf {v : Word} (h : IsNormal v) :
    (2 : ℚ) ^ ((expOf v : Int) - 127) * (1 + (fracOf v : ℚ) / 128) = (scaledOf v : ℚ) / 2 ^ 133 := by
  obtain ⟨n, hn⟩ : ∃ n, expOf v = n + 1 := ⟨expOf v - 1, by omega⟩
  have hscaled : scaledOf v = (128 + fracOf v) * 2 ^ n := by
    have hplaces : max 1 (expOf v) - 1 = n := by omega
    rw [scaledOf, sigOf, if_neg (by omega), hplaces]
  have hexp : (expOf v : Int) - 127 = (n : Int) - (126 : Nat) := by omega
  rw [hscaled, hexp, zpow_sub₀ two_ne_zero, zpow_natCast, zpow_natCast]
  push_cast
  ring

/-- A denormal, or a zero, is `m` units of the smallest denormal. -/
theorem denormal_value_eq_scaledOf {v : Word} (h : expOf v = 0) :
    (2 : ℚ) ^ (-126 : Int) * ((fracOf v : ℚ) / 128) = (scaledOf v : ℚ) / 2 ^ 133 := by
  have hscaled : scaledOf v = fracOf v := by
    rw [scaledOf, sigOf, if_pos h, h]
    exact Nat.mul_one _
  rw [hscaled, zpow_neg, zpow_ofNat]
  ring

/-- Settles O53: the branches of `numericValue_eq`, the two finite ones in units of 2^-133. -/
theorem numericValueOfPattern : Obligations.NumericValueOfPattern := by
  refine fun v => ⟨fun hfin => ?finite, fun hinf => ?infinite, fun hnan => ?nan⟩ <;> rw [numericValue_eq]
  case finite =>
    rw [if_neg (not_isNaN_of_isFinite hfin), if_neg (not_isInf_of_isFinite hfin)]
    by_cases hnormal : IsNormal v
    · rw [if_pos hnormal, normal_value_eq_scaledOf hnormal]
    · have hexp : expOf v = 0 := by
        have : expOf v < 255 := hfin
        omega
      rw [if_neg hnormal, denormal_value_eq_scaledOf hexp]
  case infinite => rw [if_neg (not_isNaN_of_isInf hinf), if_pos hinf]
  case nan => rw [if_pos hnan]

end Sys2Proof.Proofs
end

section
/-! The caller's lines (30_encoding.md R50, R51): when a line assembles, to which request, and what issuing it does
(70_reset_and_hazards.md R121). -/

namespace Sys2Proof.Proofs

open Sys2Proof.Machine Sys2Proof.Laws

/-! ### Operands -/

/-- An operand has a value exactly when it refers to no line but an earlier one. -/
theorem exists_operandIs_iff (held : List Word) (x : Operand) :
    (∃ v, OperandIs held x v) ↔ x.wf (held.length + 1) = true := by
  cases x with
  | pattern u => simp [OperandIs, Operand.wf]
  | result j =>
    have hheld : (∃ v, held[j - 1]? = some v) ↔ j - 1 < held.length := by simp [List.getElem?_eq_some_iff]
    simp only [OperandIs, Operand.wf, exists_and_left, hheld, Bool.and_eq_true, decide_eq_true_eq]
    omega

/-- A line assembles to the operation on the values of its operands, and to nothing else. -/
theorem assemble2_eq_ok_iff (f : Word → Word → Instr) (held : List Word) (x y : Operand) (i : Instr) :
    assemble2 f held x y = .ok i ↔ ∃ v w, OperandIs held x v ∧ OperandIs held y w ∧ f v w = i := by
  simp only [← operandValue_eq_ok_iff]
  cases hx : operandValue held x <;> cases hy : operandValue held y <;> simp [assemble2, hx, hy]

theorem assemble2_of_operandIs (f : Word → Word → Instr) {held : List Word} {x y : Operand} {v w : Word}
    (hx : OperandIs held x v) (hy : OperandIs held y w) : assemble2 f held x y = .ok (f v w) :=
  (assemble2_eq_ok_iff f held x y _).mpr ⟨v, w, hx, hy, rfl⟩

theorem assemble2_ok_iff (f : Word → Word → Instr) (held : List Word) (x y : Operand) :
    (∃ i, assemble2 f held x y = .ok i) ↔
      (x.wf (held.length + 1) && y.wf (held.length + 1)) = true := by
  rw [Bool.and_eq_true, ← exists_operandIs_iff, ← exists_operandIs_iff]
  simp only [assemble2_eq_ok_iff]
  constructor
  · rintro ⟨_, v, w, hx, hy, -⟩
    exact ⟨⟨v, hx⟩, ⟨w, hy⟩⟩
  · rintro ⟨⟨v, hx⟩, ⟨w, hy⟩⟩
    exact ⟨_, v, w, hx, hy, rfl⟩

/-! ### Lines -/

/-- A binary line needs both operands; the others write a pattern beside their one operand, which any line may. -/
theorem assemble_ok_iff (held : List Word) (l : Line) :
    (∃ i, assemble held l = .ok i) ↔ l.wf (held.length + 1) = true := by
  cases l with
  | add x y => exact assemble2_ok_iff .add held x y
  | sub x y => exact assemble2_ok_iff .sub held x y
  | mul x y => exact assemble2_ok_iff .mul held x y
  | div x y => exact assemble2_ok_iff .div held x y
  | iszero x => exact (assemble2_ok_iff .iszero held x _).trans (by rw [Operand.wf, Bool.and_true, Line.wf])
  | isnan x => exact (assemble2_ok_iff .isnan held x _).trans (by rw [Operand.wf, Bool.and_true, Line.wf])
  | isinf x => exact (assemble2_ok_iff .isinf held x _).trans (by rw [Operand.wf, Bool.and_true, Line.wf])
  | classify x => exact (assemble2_ok_iff .classify held x _).trans (by rw [Operand.wf, Bool.and_true, Line.wf])
  | neg x => exact (assemble2_ok_iff .sub held _ x).trans (by rw [Operand.wf, Bool.true_and, Line.wf])
  | copy x => exact (assemble2_ok_iff .add held _ x).trans (by rw [Operand.wf, Bool.true_and, Line.wf])

/-- Issuing a line that assembles makes its request and keeps the one result. -/
theorem issue_of_assemble {l : Line} {c : Caller} {i : Instr} (h : assemble c.held l = .ok i) : ∃ v : Word,
    exec i c.unit = .next { c.unit with r := v } ∧
    issue l c = .ok (.next
      { unit := { params := c.unit.params, op := i.opSel, a := i.operandA, b := i.operandB, r := v },
        held := c.held ++ [v] }) := by
  obtain ⟨v, hexec, hrequest⟩ := exec_and_request_answer i c.unit
  refine ⟨v, hexec, ?_⟩
  simp only [issue, h, hrequest]

/-- Settles O54: the four laws above, the unary and the pseudo-operations with the pattern they write for `b` or `a`. -/
theorem wellFormedLinesAssembleAndRun : Obligations.WellFormedLinesAssembleAndRun := by
  refine ⟨fun l held => assemble_ok_iff held l, fun held x y v w hx hy => ?binary, fun held x v hx => ?unary,
    fun l c i => issue_of_assemble⟩
  case binary =>
    exact ⟨assemble2_of_operandIs .add hx hy, assemble2_of_operandIs .sub hx hy, assemble2_of_operandIs .mul hx hy,
      assemble2_of_operandIs .div hx hy⟩
  case unary =>
    have hzero : OperandIs held (.pattern 0x0000#16) 0x0000#16 := rfl
    exact ⟨assemble2_of_operandIs .iszero hx hzero, assemble2_of_operandIs .isnan hx hzero,
      assemble2_of_operandIs .isinf hx hzero, assemble2_of_operandIs .classify hx hzero,
      assemble2_of_operandIs .sub hzero hx, assemble2_of_operandIs .add hzero hx⟩

end Sys2Proof.Proofs
end
